-- ==== Sys2Proof/Word.lean ====
section
/-! DEFINITION. The word types of the machine (spec/00_scope.md R6: `DATA_WIDTH`, `ADDR_WIDTH`, `CYC_WIDTH`). -/

namespace Sys2Proof

/-- A memory cell, and the width of A, X and Y (R6 `DATA_WIDTH`). -/
abbrev Byte := BitVec 8

/-- A 16-bit address, and the width of PC and SP (R6 `ADDR_WIDTH`, `PC_WIDTH`, `SP_WIDTH`). -/
abbrev Addr := BitVec 16

/-- A count of cycles: 32 bits, two's complement (R6 `CYC_WIDTH`, D3); read as a signed number by `BitVec.toInt`. -/
abbrev Cycles := BitVec 32

/-- The offending address of an AddressOutOfRange fault: 17 bits (10_state.md R38). -/
abbrev WideAddr := BitVec 17

end Sys2Proof
end

