-- ==== Sys2Proof/Config.lean ====
section
/-! DEFINITION. What one implementation fixes: the parameters of spec/00_scope.md R6, and the model's free value.
The parameters `ADDR_OVERFLOW`, `SP_MASK` and `RESET_READS_VECTOR` have no second value with rules of its own
(R6, 93_implementation_defined.md U4, U5), so they have no definition here: the rules are written for their one value. -/

namespace Sys2Proof

/-- The number of memory cells (R6 `MEM_SIZE`): addresses 0 to 0xFFFF exist. -/
def Config.memSize : Nat := 65536

/-- PC after Reset (R6 `RESET_PC`; 70_reset_and_hazards.md R203: no vector is read). -/
def Config.resetPC : Addr := 0xFFFC#16

/-- SP after Reset (R6 `RESET_SP`). -/
def Config.resetSP : Addr := 0x0100#16

/-- The two page-cross detections the spec describes (R6 `PAGE_CROSS_POLICY`; 40_access_primitives.md R106, R110). -/
inductive PageCrossPolicy where
  /-- The high byte of base and indexed address differ: this hardware (R106, 90_conflicts.md C1). -/
  | highByte
  /-- The indexed address is 0xFF or more above the base: recorded, not this hardware (R110). -/
  | thresholdFF
  deriving DecidableEq, Repr

/-- `PAGE_CROSS_POLICY` of this hardware (R6). -/
def Config.pageCrossPolicy : PageCrossPolicy := .highByte

/-- The opcode parameters `OPC_*` (R6, 30_encoding.md R85): the opcode byte of each of the nine instructions. -/
structure Opcodes where
  ldaImm  : Byte
  ldaZp   : Byte
  ldaZpX  : Byte
  ldaAbs  : Byte
  ldaAbsX : Byte
  ldaAbsY : Byte
  ldaIndX : Byte
  ldaIndY : Byte
  jsr     : Byte
  deriving DecidableEq, Repr

/-- The nine values of an assignment of opcodes. -/
def Opcodes.toList (o : Opcodes) : List Byte :=
  [o.ldaImm, o.ldaZp, o.ldaZpX, o.ldaAbs, o.ldaAbsX, o.ldaAbsY, o.ldaIndX, o.ldaIndY, o.jsr]

/-- FREE VALUE. What USED shows when `REQ - CYC` does not fit 32 signed bits; the argument is `State.freeIndex`.
DESIGN CHOICE, safe (notes/assumptions/4.md): the spec states no result there. -/
opaque Config.freeUsed : Nat → Cycles

end Sys2Proof
end

