-- ==== Sys2Proof/Syntax.lean ====
section
/-! DEFINITION. The instruction set: one constructor per row of spec/opcode_table.json (30_encoding.md R84). -/

namespace Sys2Proof

/-- The nine instructions of spec/00_scope.md R2, each with the operand of its format (30_encoding.md R81, R82). -/
inductive Instr where
  /-- LDA Immediate (41_load_accumulator.md R121): `imm` is the value loaded. -/
  | ldaImm  (imm : Byte)
  /-- LDA Zero-page (R122): `zp` is a zero-page address. -/
  | ldaZp   (zp : Byte)
  /-- LDA Zero-page,X (R123). -/
  | ldaZpX  (zp : Byte)
  /-- LDA Absolute (R124). -/
  | ldaAbs  (addr : Addr)
  /-- LDA Absolute,X (R125). -/
  | ldaAbsX (addr : Addr)
  /-- LDA Absolute,Y (R126). -/
  | ldaAbsY (addr : Addr)
  /-- LDA (Indirect,X) (R127): `zp` is the unindexed pointer. -/
  | ldaIndX (zp : Byte)
  /-- LDA (Indirect),Y (R128): `zp` is the pointer. -/
  | ldaIndY (zp : Byte)
  /-- Jump-to-subroutine (42_control_transfer.md R140). -/
  | jsr     (target : Addr)
  deriving DecidableEq, Repr

/-- What an opcode byte selects: operation and addressing mode together (30_encoding.md R86). -/
inductive Form where
  | ldaImm | ldaZp | ldaZpX | ldaAbs | ldaAbsX | ldaAbsY | ldaIndX | ldaIndY | jsr
  deriving DecidableEq, Repr

/-- The nine forms, in the table's order. -/
def Form.all : List Form :=
  [.ldaImm, .ldaZp, .ldaZpX, .ldaAbs, .ldaAbsX, .ldaAbsY, .ldaIndX, .ldaIndY, .jsr]

/-- The three instruction formats (30_encoding.md R81). -/
inductive Format where
  | opImm8 | opZp8 | opAbs16
  deriving DecidableEq, Repr

/-- The form an instruction is of. -/
def Instr.form : Instr → Form
  | .ldaImm _  => .ldaImm
  | .ldaZp _   => .ldaZp
  | .ldaZpX _  => .ldaZpX
  | .ldaAbs _  => .ldaAbs
  | .ldaAbsX _ => .ldaAbsX
  | .ldaAbsY _ => .ldaAbsY
  | .ldaIndX _ => .ldaIndX
  | .ldaIndY _ => .ldaIndY
  | .jsr _     => .jsr

end Sys2Proof
end

