-- ==== Sys2Proof/WellFormed.lean ====
section
/-! DEFINITION. What must hold of syntax beyond its types: of an instruction, nothing (30_encoding.md R82: every
operand byte and every operand word is legal, and the types hold the widths); of an assignment of the opcode
parameters, the three constraints of R85. -/

namespace Sys2Proof

/-- An instruction is well formed whatever its operand: R82 restricts no `imm8`, `zp8` or `abs16`
(and R24, R142: no alignment, any 16-bit target is legal). -/
def Instr.wellFormed : Instr → Bool
  | .ldaImm _  => true
  | .ldaZp _   => true
  | .ldaZpX _  => true
  | .ldaAbs _  => true
  | .ldaAbsX _ => true
  | .ldaAbsY _ => true
  | .ldaIndX _ => true
  | .ldaIndY _ => true
  | .jsr _     => true

/-- R85: "the nine values are pairwise distinct". -/
def Opcodes.distinct (o : Opcodes) : Bool := decide o.toList.Nodup

/-- R85: `OPC_LDA_IMM = 0xA9`. -/
def Opcodes.immediateIsA9 (o : Opcodes) : Bool := o.ldaImm == 0xA9#8

/-- R85: none equals 0xFF. -/
def Opcodes.avoidsFF (o : Opcodes) : Bool := !(o.toList.contains 0xFF#8)

/-- The constraints any assignment of the opcode parameters must meet (R85). -/
def Opcodes.wellFormed (o : Opcodes) : Bool := o.distinct && o.immediateIsA9 && o.avoidsFF

end Sys2Proof
end

