-- ==== Sys2Proof/Decode.lean ====
section
/-! DEFINITION. Decoding and encoding (spec/30_encoding.md), both written over an assignment `o` of the opcode
parameters (R85) and then fixed at the default assignment. -/

namespace Sys2Proof

/-- `{h, l}` of 00_scope.md R11: the 16-bit value `256*h + l`. -/
def wordOf (hi lo : Byte) : Addr := BitVec.ofNat 16 (256 * hi.toNat + lo.toNat)

/-- `lo8(v) = v[7:0]` (R11). -/
def lo8 (v : Addr) : Byte := BitVec.ofNat 8 (v.toNat % 256)

/-- `hi8(v) = v[15:8]` (R11). -/
def hi8 (v : Addr) : Byte := BitVec.ofNat 8 (v.toNat / 256)

/-- The default assignment of the opcode bytes (30_encoding.md R84).
0xA9 is the document's. PRESUMED, unsafe (notes/assumptions/1.md): the other eight are general knowledge (G1, G2). -/
def Opcodes.standard : Opcodes where
  ldaImm  := 0xA9#8
  ldaZp   := 0xA5#8
  ldaZpX  := 0xB5#8
  ldaAbs  := 0xAD#8
  ldaAbsX := 0xBD#8
  ldaAbsY := 0xB9#8
  ldaIndX := 0xA1#8
  ldaIndY := 0xB1#8
  jsr     := 0x20#8

/-- The opcode byte that selects a form. -/
def Opcodes.code (o : Opcodes) : Form → Byte
  | .ldaImm  => o.ldaImm
  | .ldaZp   => o.ldaZp
  | .ldaZpX  => o.ldaZpX
  | .ldaAbs  => o.ldaAbs
  | .ldaAbsX => o.ldaAbsX
  | .ldaAbsY => o.ldaAbsY
  | .ldaIndX => o.ldaIndX
  | .ldaIndY => o.ldaIndY
  | .jsr     => o.jsr

/-- Dispatch on the whole opcode byte (R84: mask 0xFF); `none` for an unassigned byte (R88). -/
def Opcodes.lookup (o : Opcodes) (b : Byte) : Option Form := Form.all.find? (fun f => o.code f == b)

/-- The format of a form (R81, R84). -/
def Form.format : Form → Format
  | .ldaImm  => .opImm8
  | .ldaZp   => .opZp8
  | .ldaZpX  => .opZp8
  | .ldaAbs  => .opAbs16
  | .ldaAbsX => .opAbs16
  | .ldaAbsY => .opAbs16
  | .ldaIndX => .opZp8
  | .ldaIndY => .opZp8
  | .jsr     => .opAbs16

/-- Length in bytes of a format, the opcode byte included (R81). -/
def Format.length : Format → Nat
  | .opImm8  => 2
  | .opZp8   => 2
  | .opAbs16 => 3

/-- Length of an instruction, a function of its opcode byte alone (R83). -/
def Instr.length (i : Instr) : Nat := i.form.format.length

/-- What follows the opcode byte of a form, and the instruction it makes (R81, R82). -/
inductive Operand where
  /-- One operand byte, used as it stands. -/
  | byte (mk : Byte → Instr)
  /-- Two operand bytes, the low one first. -/
  | word (mk : Addr → Instr)

/-- The operand of each form (R81, R82). -/
def Form.operand : Form → Operand
  | .ldaImm  => .byte .ldaImm
  | .ldaZp   => .byte .ldaZp
  | .ldaZpX  => .byte .ldaZpX
  | .ldaAbs  => .word .ldaAbs
  | .ldaAbsX => .word .ldaAbsX
  | .ldaAbsY => .word .ldaAbsY
  | .ldaIndX => .byte .ldaIndX
  | .ldaIndY => .byte .ldaIndY
  | .jsr     => .word .jsr

/-- Why a byte list is no instruction. -/
inductive DecodeError where
  /-- There is no opcode byte. -/
  | noOpcode
  /-- The opcode byte is unassigned (R88); no length is defined, nothing after it is read (R83, R92). -/
  | unassigned (op : Byte)
  /-- The opcode is assigned and an operand byte is missing. -/
  | missingOperand (f : Form)
  deriving DecidableEq, Repr

/-- The instruction at the head of a byte list, and the bytes after it, or the name of what is wrong. -/
def decodeWith (o : Opcodes) : List Byte → Except DecodeError (Instr × List Byte)
  | [] => .error .noOpcode
  | op :: rest =>
    match o.lookup op with
    | none => .error (.unassigned op)
    | some f =>
      match f.operand, rest with
      | .byte mk, b :: rest' => .ok (mk b, rest')
      | .word mk, l :: h :: rest' => .ok (mk (wordOf h l), rest')
      | .byte _, [] => .error (.missingOperand f)
      | .word _, [] => .error (.missingOperand f)
      | .word _, [_] => .error (.missingOperand f)

/-- `decodeWith` at the default opcode assignment (R84). -/
def decode (bytes : List Byte) : Except DecodeError (Instr × List Byte) := decodeWith Opcodes.standard bytes

/-- The two bytes of an operand word, low byte first (20_memory.md R54). -/
def wordBytes (v : Addr) : List Byte := [lo8 v, hi8 v]

/-- The operand bytes of an instruction, in memory order (R81). -/
def Instr.operandBytes : Instr → List Byte
  | .ldaImm imm   => [imm]
  | .ldaZp zp     => [zp]
  | .ldaZpX zp    => [zp]
  | .ldaAbs addr  => wordBytes addr
  | .ldaAbsX addr => wordBytes addr
  | .ldaAbsY addr => wordBytes addr
  | .ldaIndX zp   => [zp]
  | .ldaIndY zp   => [zp]
  | .jsr target   => wordBytes target

/-- The bytes of an instruction, the opcode byte first (R80, R81). -/
def encodeWith (o : Opcodes) (i : Instr) : List Byte := o.code i.form :: i.operandBytes

/-- `encodeWith` at the default opcode assignment (R84). -/
def encode (i : Instr) : List Byte := encodeWith Opcodes.standard i

/-- Byte `k` of an instruction numbered as spec/opcode_table.json numbers its bits: byte 0 is bits 7..0, the first
in memory; the bits at and above `nbits` are 0. -/
def tableByte (nbits w k : Nat) : Byte := BitVec.ofNat 8 (w % 2 ^ nbits / 256 ^ k)

/-- The bytes of the longest instruction length (3), in memory order. -/
def tableBytes (nbits w : Nat) : List Byte := [tableByte nbits w 0, tableByte nbits w 1, tableByte nbits w 2]

/-- The instruction the decoder reads from the bits `w` of a table row. -/
def decodeTableWord (nbits w : Nat) : Option Instr :=
  match decode (tableBytes nbits w) with
  | .ok r => some r.1
  | .error _ => none

end Sys2Proof
end

