-- ==== Sys2Proof/Machine/State.lean ====
section
/-! DEFINITION. The machine's state (spec/10_state.md R20) as plain data, the reasons a step can stop, and the state
after Reset (R41). -/

namespace Sys2Proof.Machine

/-- The names of the seven status flags (10_state.md R26). -/
inductive FlagName where
  | c | z | i | d | b | v | n
  deriving DecidableEq, Repr

/-- The seven one-bit status flags, each independent (R26); no packed byte exists (R34). -/
structure Flags where
  /-- Carry (R29). -/
  c : Bool
  /-- Zero (R27). -/
  z : Bool
  /-- Interrupt-disable, inert (R30). -/
  i : Bool
  /-- Decimal, inert (R31). -/
  d : Bool
  /-- Break, inert (R32). -/
  b : Bool
  /-- Overflow, inert (R33). -/
  v : Bool
  /-- Negative (R28). -/
  n : Bool
  deriving DecidableEq, Repr

/-- The names of the 8-bit registers (R21 to R23). -/
inductive Reg8 where
  | a | x | y
  deriving DecidableEq, Repr

/-- The names of the 16-bit registers (R24, R25). -/
inductive Reg16 where
  | pc | sp
  deriving DecidableEq, Repr

/-- Memory: the cells that do not hold 0x00, as (address, byte) pairs with strictly rising addresses
(`Memory.wf` of Machine/Ops.lean). An address not listed reads 0x00, as every cell does after Reset (R39, R41). -/
abbrev Memory := List Host.Cell

/-- `RUN` (R37): Idle, the host may act; Running, a run is in progress. -/
inductive RunState where
  | idle | running
  deriving DecidableEq, Repr

/-- `FAULT` (R38): the two-bit code of the last run's failure. Code 3 is never produced, so it has no constructor
(DESIGN CHOICE, safe: notes/assumptions/8.md). -/
inductive FaultCode where
  /-- Code 0. -/
  | none
  /-- Code 1 (60_exceptions.md R171). -/
  | unhandledOpcode
  /-- Code 2 (R172). -/
  | addressOutOfRange
  deriving DecidableEq, Repr

/-- `FAULT_INFO` (R38), by what the code says it holds (notes/assumptions/8.md). -/
inductive FaultInfo where
  /-- Code 0: its content is zero. -/
  | zero
  /-- Code 1: the offending opcode byte and the address it was fetched from. -/
  | opcodeAt (op : Byte) (pc : Addr)
  /-- Code 2: the offending address. -/
  | address (a : WideAddr)
  deriving DecidableEq, Repr

/-- What the host can do to the core while `RUN = Idle`: the two commands (00_scope.md R8) and the writes of the host
access interface (R9). -/
inductive HostAction where
  /-- The command `Reset` (70_reset_and_hazards.md R200). -/
  | reset
  /-- The command `Execute(budget)` (43_execute_loop.md R150). -/
  | execute (budget : Cycles)
  /-- Write one memory cell. -/
  | writeMem (addr : Addr) (v : Byte)
  /-- Write A, X or Y. -/
  | write8 (r : Reg8) (v : Byte)
  /-- Write PC or SP. -/
  | write16 (r : Reg16) (v : Addr)
  /-- Write one flag. -/
  | writeFlag (f : FlagName) (v : Bool)
  deriving DecidableEq, Repr

/-- The architectural state of the machine (R20), and two fields of the model's own. -/
structure State where
  /-- Accumulator (R21). -/
  a : Byte
  /-- Index register X (R22). -/
  x : Byte
  /-- Index register Y (R23). -/
  y : Byte
  /-- Program counter (R24). -/
  pc : Addr
  /-- Stack pointer, an unmasked 16-bit address (R25). -/
  sp : Addr
  /-- Status flags (R26). -/
  flags : Flags
  /-- Memory (R39). -/
  mem : Memory
  /-- `CYC`, the remaining budget (R35). -/
  cyc : Cycles
  /-- `REQ`, the requested budget (R36). -/
  req : Cycles
  /-- `USED`, the result of the last Execute (R36). -/
  used : Cycles
  /-- `RUN` (R37). -/
  run : RunState
  /-- `FAULT` (R38). -/
  fault : FaultCode
  /-- `FAULT_INFO` (R38). -/
  faultInfo : FaultInfo
  /-- THE MODEL'S OWN: the host's coming actions, oldest first; read only while Idle (notes/assumptions/2.md). -/
  hostQueue : List HostAction
  /-- THE MODEL'S OWN: the index of the next free value (notes/assumptions/4.md). -/
  freeIndex : Nat
  deriving DecidableEq, Repr

/-- Reasons to stop with a fault: NONE. Both failure kinds of the spec (60_exceptions.md R170) have an entry that the
spec describes (R174), so both are next states (notes/assumptions/6.md). -/
inductive Fault where
  deriving DecidableEq, Repr

/-- Reasons to refuse. -/
inductive Refusal where
  /-- An instruction that has no meaning yet; raised by `exec`'s refused arms only, of which there is none. Safe. -/
  | notModelled (mnemonic : String)
  /-- A host command or access while `RUN = Running`; raised by `hostAct` only, which `step` calls only while Idle.
  Safe: the spec has no such move (93_implementation_defined.md U10; R8, R9, R210). -/
  | hostActionWhileRunning
  deriving DecidableEq, Repr

/-- All flags 0 (R41). -/
def Flags.reset : Flags := ⟨false, false, false, false, false, false, false⟩

/-- The machine right after Reset (10_state.md R41, 70_reset_and_hazards.md R200). The last two fields are the model's
own (DESIGN CHOICE: notes/assumptions/2.md, notes/assumptions/4.md). -/
def State.reset : State where
  a := 0x00#8
  x := 0x00#8
  y := 0x00#8
  pc := Config.resetPC
  sp := Config.resetSP
  flags := Flags.reset
  mem := []
  cyc := 0#32
  req := 0#32
  used := 0#32
  run := .idle
  fault := .none
  faultInfo := .zero
  hostQueue := []
  freeIndex := 0

end Sys2Proof.Machine
end

