-- ==== Sys2Proof/Machine/Ops.lean ====
section
/-! DEFINITION. Memory, the charged access primitives (spec/40_access_primitives.md R100 to R104), taking a fault
(60_exceptions.md R174) and ending a run (43_execute_loop.md R155). -/

namespace Sys2Proof.Machine

/-! ### Memory as a list of cells -/

/-- What an address that is not listed reads as: 0x00, the reset contents (10_state.md R41). -/
def Memory.unlisted : Byte := 0x00#8

/-- The byte at an address. -/
def Memory.read : Memory → Nat → Byte
  | [], _ => Memory.unlisted
  | (b, w) :: m, a => if b = a then w else Memory.read m a

/-- The memory with one byte replaced, in canonical form: no cell is listed for the value an unlisted address reads as. -/
def Memory.write : Memory → Nat → Byte → Memory
  | [], a, v => if v = Memory.unlisted then [] else [(a, v)]
  | (b, w) :: m, a, v =>
    if a < b then (if v = Memory.unlisted then (b, w) :: m else (a, v) :: (b, w) :: m)
    else if a = b then (if v = Memory.unlisted then m else (a, v) :: m)
    else (b, w) :: Memory.write m a v

/-- The cells lie at strictly rising addresses from `lo` up, below 65536, and none holds what an unlisted one reads as. -/
def Memory.wfFrom (lo : Nat) : Memory → Bool
  | [] => true
  | (a, v) :: m => decide (lo ≤ a) && decide (a < Config.memSize) && v != Memory.unlisted && Memory.wfFrom (a + 1) m

/-- The canonical form of a memory: equal memories are equal lists. -/
def Memory.wf (m : Memory) : Bool := Memory.wfFrom 0 m

/-! ### Raising, and what an access answers -/

/-- The two failure kinds with what they record (60_exceptions.md R171, R172). -/
inductive Raise where
  | unhandledOpcode (op : Byte) (pc : Addr)
  | addressOutOfRange (a : WideAddr)
  deriving DecidableEq, Repr

/-- The code of a failure (R38, R170). -/
def Raise.code : Raise → FaultCode
  | .unhandledOpcode _ _ => .unhandledOpcode
  | .addressOutOfRange _ => .addressOutOfRange

/-- What a failure records (R38, R171, R172). -/
def Raise.info : Raise → FaultInfo
  | .unhandledOpcode op pc => .opcodeAt op pc
  | .addressOutOfRange a => .address a

/-- `FAULT` as its two bits (R38). -/
def FaultCode.bits : FaultCode → BitVec 2
  | .none => 0#2
  | .unhandledOpcode => 1#2
  | .addressOutOfRange => 2#2

/-- An operation's value with the state it leaves, or a raise with the state as it stands there: a raise keeps every
state change already made (00_scope.md R12). -/
inductive Access (α : Type) where
  | ok (v : α) (s : State)
  | raised (r : Raise) (s : State)
  deriving DecidableEq, Repr

/-- Go on with the next operation, or stay at the raise. -/
def Access.andThen {α β : Type} (r : Access α) (f : α → State → Access β) : Access β :=
  match r with
  | .ok v s => f v s
  | .raised k s => .raised k s

/-! ### Raw memory operations: no charge (20_memory.md R52, R53) -/

/-- `MemRead(a, 1)` at an exact address (R52). -/
def memRead (a : Nat) (s : State) : Access Byte :=
  if a < Config.memSize then .ok (s.mem.read a) s else .raised (.addressOutOfRange (BitVec.ofNat 17 a)) s

/-- `MemWrite(a, 1, v)` at an exact address (R53). -/
def memWrite (a : Nat) (v : Byte) (s : State) : Access Unit :=
  if a < Config.memSize then .ok () { s with mem := s.mem.write a v }
  else .raised (.addressOutOfRange (BitVec.ofNat 17 a)) s

/-- `CYC <- CYC - n` (R12, R107). In a state that no run reaches the 32 bits may wrap (notes/assumptions/5.md). -/
def charge (n : Nat) (s : State) : State := { s with cyc := s.cyc - BitVec.ofNat 32 n }

/-! ### Charged primitives (40_access_primitives.md) -/

/-- `FetchByte()` (R100): the byte at PC; PC moves on modulo 65536; 1 cycle. It never raises. -/
def fetchByte (s : State) : Byte × State := (s.mem.read s.pc.toNat, charge 1 { s with pc := s.pc + 1#16 })

/-- `FetchWord()` (R101): two `FetchByte` operations, low byte first. -/
def fetchWord (s : State) : Addr × State :=
  let lo := fetchByte s
  let hi := fetchByte lo.2
  (wordOf hi.1 lo.1, hi.2)

/-- `ReadByte(a)` (R102): 1 cycle, not charged when it raises. -/
def readByte (a : Nat) (s : State) : Access Byte := (memRead a s).andThen fun v s' => .ok v (charge 1 s')

/-- `ReadWord(a)` (R103): `ReadByte` at `a` and at the exact `a + 1`, little-endian. -/
def readWord (a : Nat) (s : State) : Access Addr :=
  (readByte a s).andThen fun lo s' => (readByte (a + 1) s').andThen fun hi s'' => .ok (wordOf hi lo) s''

/-- `WriteWord(v, a)` (R104): low byte, then high byte at the exact `a + 1`, then 2 cycles. -/
def writeWord (v : Addr) (a : Addr) (s : State) : Access Unit :=
  (memWrite a.toNat (lo8 v) s).andThen fun _ s' =>
    (memWrite (a.toNat + 1) (hi8 v) s').andThen fun _ s'' => .ok () (charge 2 s'')

/-! ### The end of a run, and taking a fault -/

/-- Can `REQ - CYC` be held in 32 signed bits? -/
def usedFits (s : State) : Bool :=
  decide (-2147483648 ≤ s.req.toInt - s.cyc.toInt) && decide (s.req.toInt - s.cyc.toInt ≤ 2147483647)

/-- `USED <- REQ - CYC ; RUN <- Idle`: the end of a run (43_execute_loop.md R155; 60_exceptions.md R174).
Where `REQ - CYC` does not fit USED, a FREE VALUE (notes/assumptions/4.md). -/
def endRun (s : State) : State :=
  if usedFits s then { s with used := s.req - s.cyc, run := .idle }
  else { s with used := Config.freeUsed s.freeIndex, freeIndex := s.freeIndex + 1, run := .idle }

/-- Fault entry (60_exceptions.md R174): the failure is recorded and the run ends; PC is not redirected, nothing is
saved and nothing already done is undone (R175). There is no return from a fault (R176). -/
def takeFault (r : Raise) (s : State) : State := endRun { s with fault := r.code, faultInfo := r.info }

end Sys2Proof.Machine
end

