-- ==== Sys2Proof/Machine/Control.lean ====
section
/-! DEFINITION. Jump-to-subroutine (spec/42_control_transfer.md R140), on the state after the instruction's three bytes
were fetched and charged (Machine/Fetch.lean). -/

namespace Sys2Proof.Machine

/-- The value pushed: `(PC - 1) mod 65536` with PC past the instruction, the address of its last byte (R140, R141). -/
def returnValue (s : State) : Addr := s.pc - 1#16

/-- JSR (R140): push the return value at SP and SP + 1, add 2 to SP, go to the target, 1 internal cycle.
At SP = 0xFFFF the low byte is stored and the high byte's store raises (R140, R173). -/
def execJsr (target : Addr) (s : State) : Host.Outcome State Fault Refusal :=
  match writeWord (returnValue s) s.sp s with
  | .ok _ s' => .next (charge 1 { s' with sp := s'.sp + 2#16, pc := target })
  | .raised k s' => .next (takeFault k s')

end Sys2Proof.Machine
end

