-- ==== Sys2Proof/Machine/Flags.lean ====
section
/-! DEFINITION. Flag computations (spec/40_access_primitives.md R105) and access to one flag by name (10_state.md R26). -/

namespace Sys2Proof.Machine

/-- Zero detect (R109): all eight bits are 0. -/
def zeroDetect (v : Byte) : Bool := v == 0x00#8

/-- Sign-bit copy (R109): bit 7. -/
def signBit (v : Byte) : Bool := v.getLsbD 7

/-- `UpdateLoadFlags()` (R105): Z and N from A; the other five flags and everything else unchanged; no charge. -/
def updateLoadFlags (s : State) : State := { s with flags := { s.flags with z := zeroDetect s.a, n := signBit s.a } }

/-- One flag by name (R26). -/
def Flags.get (f : Flags) : FlagName → Bool
  | .c => f.c
  | .z => f.z
  | .i => f.i
  | .d => f.d
  | .b => f.b
  | .v => f.v
  | .n => f.n

/-- Write one flag by name, the other six unchanged (R26, 00_scope.md R9). -/
def Flags.set (f : Flags) (name : FlagName) (v : Bool) : Flags :=
  match name with
  | .c => { f with c := v }
  | .z => { f with z := v }
  | .i => { f with i := v }
  | .d => { f with d := v }
  | .b => { f with b := v }
  | .v => { f with v := v }
  | .n => { f with n := v }

end Sys2Proof.Machine
end

