-- ==== Sys2Proof/Machine/Operands.lean ====
section
/-! DEFINITION. The page-cross test (spec/40_access_primitives.md R106, R110) and the addressing-mode resolver (R108):
each of the eight modes answers the operand byte, with the charges in the order of 41_load_accumulator.md. -/

namespace Sys2Proof.Machine

/-- `page(a) = a div 256` (00_scope.md R11). -/
def page (a : Nat) : Nat := a / 256

/-- Both page-cross detections the spec describes (R106, R110); `ea` is the exact sum of base and index. -/
def pageCrossBy (p : PageCrossPolicy) (base : Addr) (ea : Nat) : Bool :=
  match p with
  | .highByte => page base.toNat != page ea
  | .thresholdFF => decide (0xFF ≤ ea - base.toNat)

/-- `PageCross(base, ea)` of this hardware (R106, 92_eei_decisions.md D9). -/
def pageCross (base : Addr) (ea : Nat) : Bool := pageCrossBy Config.pageCrossPolicy base ea

/-- 8-bit index addition, the carry discarded (R109). -/
def zeroPageIndex (zp idx : Byte) : Byte := zp + idx

/-- 16-bit base plus 8-bit index, exact: 0 to 0x100FE (R109). -/
def indexedAddress (base : Addr) (idx : Byte) : Nat := base.toNat + idx.toNat

/-- Immediate (R121): the operand byte itself. -/
def operandImm (imm : Byte) (s : State) : Access Byte := .ok imm s

/-- Zero-page (R122). -/
def operandZp (zp : Byte) (s : State) : Access Byte := readByte zp.toNat s

/-- Zero-page,X (R123): 1 cycle for the index addition, always. -/
def operandZpX (zp : Byte) (s : State) : Access Byte := readByte (zeroPageIndex zp s.x).toNat (charge 1 s)

/-- Absolute (R124). -/
def operandAbs (addr : Addr) (s : State) : Access Byte := readByte addr.toNat s

/-- Base plus index: the page-cross cycle, if any, then the read (R107, R125, R126, R128). -/
def operandIndexed (base : Addr) (idx : Byte) (s : State) : Access Byte :=
  readByte (indexedAddress base idx) (if pageCross base (indexedAddress base idx) then charge 1 s else s)

/-- Absolute,X (R125). -/
def operandAbsX (addr : Addr) (s : State) : Access Byte := operandIndexed addr s.x s

/-- Absolute,Y (R126). -/
def operandAbsY (addr : Addr) (s : State) : Access Byte := operandIndexed addr s.y s

/-- (Indirect,X) (R127): the pointer is indexed modulo 256, 1 cycle, and holds the address. -/
def operandIndX (zp : Byte) (s : State) : Access Byte :=
  (readWord (zeroPageIndex zp s.x).toNat (charge 1 s)).andThen fun ea s' => readByte ea.toNat s'

/-- (Indirect),Y (R128): the pointer holds the base, which is indexed by Y. -/
def operandIndY (zp : Byte) (s : State) : Access Byte :=
  (readWord zp.toNat s).andThen fun base s' => operandIndexed base s'.y s'

end Sys2Proof.Machine
end

