-- ==== Sys2Proof/Machine/Load.lean ====
section
/-! DEFINITION. LDA in its eight addressing modes (spec/41_load_accumulator.md). A meaning runs on the state after the
instruction's bytes were fetched and charged (Machine/Fetch.lean; notes/assumptions/11.md). -/

namespace Sys2Proof.Machine

/-- The common end of every mode (R120): A takes the operand byte, then Z and N follow A; where the mode raised,
A, Z and N keep their values and the fault is taken (R120, 60_exceptions.md R174). -/
def completeLoad (r : Access Byte) : Host.Outcome State Fault Refusal :=
  match r with
  | .ok v s => .next (updateLoadFlags { s with a := v })
  | .raised k s => .next (takeFault k s)

/-- LDA Immediate (R121). -/
def execLdaImm (imm : Byte) (s : State) : Host.Outcome State Fault Refusal := completeLoad (operandImm imm s)

/-- LDA Zero-page (R122). -/
def execLdaZp (zp : Byte) (s : State) : Host.Outcome State Fault Refusal := completeLoad (operandZp zp s)

/-- LDA Zero-page,X (R123). -/
def execLdaZpX (zp : Byte) (s : State) : Host.Outcome State Fault Refusal := completeLoad (operandZpX zp s)

/-- LDA Absolute (R124). -/
def execLdaAbs (addr : Addr) (s : State) : Host.Outcome State Fault Refusal := completeLoad (operandAbs addr s)

/-- LDA Absolute,X (R125). -/
def execLdaAbsX (addr : Addr) (s : State) : Host.Outcome State Fault Refusal := completeLoad (operandAbsX addr s)

/-- LDA Absolute,Y (R126). -/
def execLdaAbsY (addr : Addr) (s : State) : Host.Outcome State Fault Refusal := completeLoad (operandAbsY addr s)

/-- LDA (Indirect,X) (R127). -/
def execLdaIndX (zp : Byte) (s : State) : Host.Outcome State Fault Refusal := completeLoad (operandIndX zp s)

/-- LDA (Indirect),Y (R128). -/
def execLdaIndY (zp : Byte) (s : State) : Host.Outcome State Fault Refusal := completeLoad (operandIndY zp s)

end Sys2Proof.Machine
end

