-- ==== Sys2Proof/Machine/Fetch.lean ====
section
/-! DEFINITION. One instruction step and the loop test (spec/43_execute_loop.md R151, R152), over an assignment of the
opcode parameters (30_encoding.md R85). -/

namespace Sys2Proof.Machine

/-- Fetch what follows the opcode byte of a form (R81, R108, R140): every instruction does this before anything else. -/
def fetchOperand (f : Form) (s : State) : Instr × State :=
  match f.operand with
  | .byte mk => (mk (fetchByte s).1, (fetchByte s).2)
  | .word mk => (mk (fetchWord s).1, (fetchWord s).2)

/-- One instruction step (R152): fetch the opcode, dispatch on it; an unassigned byte raises UnhandledOpcode with
nothing else fetched (R88, R92, 60_exceptions.md R171). -/
def instrStep (o : Opcodes) (s : State) : Host.Outcome State Fault Refusal :=
  match o.lookup (fetchByte s).1 with
  | none => .next (takeFault (.unhandledOpcode (fetchByte s).1 s.pc) (fetchByte s).2)
  | some f => exec (fetchOperand f (fetchByte s).2).1 (fetchOperand f (fetchByte s).2).2

/-- `CYC > 0`, signed (R151). -/
def budgetLeft (s : State) : Bool := decide (0 < s.cyc.toInt)

/-- The core's move while Running (R151): an instruction step while budget is left, else the normal end (R155). -/
def runStepWith (o : Opcodes) (s : State) : Host.Outcome State Fault Refusal :=
  if budgetLeft s then instrStep o s else .next (endRun s)

/-- The core's move at the default opcode assignment (R84). -/
def runStep (s : State) : Host.Outcome State Fault Refusal := runStepWith Opcodes.standard s

end Sys2Proof.Machine
end

