-- ==== Sys2Proof/Machine/HostPort.lean ====
section
/-! DEFINITION. The control interface and the host access interface (spec/00_scope.md R8, R9): what the host's actions
do while Idle, and what it reads. -/

namespace Sys2Proof.Machine

/-- `Reset` (70_reset_and_hazards.md R200, R201): every piece of the spec's state takes its reset value; the model's own
two fields are kept (notes/assumptions/2.md, notes/assumptions/4.md). -/
def resetCore (s : State) : State := { State.reset with hostQueue := s.hostQueue, freeIndex := s.freeIndex }

/-- The machine at power-on, before its first Reset (70_reset_and_hazards.md R205): RUN is Idle, so that the first Reset is
accepted; every other piece of state is unspecified, whatever the argument holds (notes/assumptions/7.md). -/
def State.powerOn (unspecified : State) : State := { unspecified with run := .idle }

/-- Acceptance of `Execute(budget)` (43_execute_loop.md R150). -/
def acceptExecute (budget : Cycles) (s : State) : State :=
  { s with req := budget, cyc := budget, fault := .none, faultInfo := .zero, run := .running }

/-- Write an 8-bit register (R9): the value unchanged, nothing else (90_conflicts.md C6: no flag follows). -/
def State.write8 (s : State) (r : Reg8) (v : Byte) : State :=
  match r with
  | .a => { s with a := v }
  | .x => { s with x := v }
  | .y => { s with y := v }

/-- Write PC or SP (R9). -/
def State.write16 (s : State) (r : Reg16) (v : Addr) : State :=
  match r with
  | .pc => { s with pc := v }
  | .sp => { s with sp := v }

/-- Read an 8-bit register. -/
def State.read8 (s : State) (r : Reg8) : Byte :=
  match r with
  | .a => s.a
  | .x => s.x
  | .y => s.y

/-- Read PC or SP. -/
def State.read16 (s : State) (r : Reg16) : Addr :=
  match r with
  | .pc => s.pc
  | .sp => s.sp

/-- What a host action does in an Idle core (R8, R9). -/
def applyHost (act : HostAction) (s : State) : State :=
  match act with
  | .reset => resetCore s
  | .execute budget => acceptExecute budget s
  | .writeMem addr v => { s with mem := s.mem.write addr.toNat v }
  | .write8 r v => s.write8 r v
  | .write16 r v => s.write16 r v
  | .writeFlag f v => { s with flags := s.flags.set f v }

/-- A host action: accepted only while Idle (R8, R9, R210); while Running refused by name (93_implementation_defined.md
U10). -/
def hostAct (act : HostAction) (s : State) : Host.Outcome State Fault Refusal :=
  match s.run with
  | .idle => .next (applyHost act s)
  | .running => .refused .hostActionWhileRunning

/-- The machine's move while Idle: the host's next action, or nothing (notes/assumptions/3.md). -/
def idleStep (s : State) : Host.Outcome State Fault Refusal :=
  match s.hostQueue with
  | [] => .next s
  | act :: rest => hostAct act { s with hostQueue := rest }

/-- What the host reads (R9), only while Idle (notes/assumptions/12.md). -/
def whileIdle {α : Type} (s : State) (v : α) : Option α :=
  match s.run with
  | .idle => some v
  | .running => none

/-- The host reads one memory cell (R9). -/
def hostReadMem (s : State) (addr : Addr) : Option Byte := whileIdle s (s.mem.read addr.toNat)

/-- The host reads A, X or Y (R9). -/
def hostRead8 (s : State) (r : Reg8) : Option Byte := whileIdle s (s.read8 r)

/-- The host reads PC or SP (R9). -/
def hostRead16 (s : State) (r : Reg16) : Option Addr := whileIdle s (s.read16 r)

/-- The host reads one flag (R9). -/
def hostReadFlag (s : State) (f : FlagName) : Option Bool := whileIdle s (s.flags.get f)

end Sys2Proof.Machine
end

