-- ==== Sys2Proof/Machine/Step.lean ====
section
/-! DEFINITION. One step of the machine, and placing an instruction where the next step fetches. -/

namespace Sys2Proof.Machine

/-- One step: the host's next action while Idle, the core's next move while Running (spec/00_scope.md R8, R9;
43_execute_loop.md R151). -/
def step (s : State) : Host.Outcome State Fault Refusal :=
  match s.run with
  | .idle => idleStep s
  | .running => runStep s

/-- Store a list of bytes at PC and the addresses after it, modulo 65536 (30_encoding.md R87). -/
def storeAt (pc : Addr) (bytes : List Byte) (m : Memory) : Memory :=
  match bytes with
  | [] => m
  | b :: rest => storeAt (pc + 1#16) rest (m.write pc.toNat b)

/-- The state with an instruction's bytes placed at PC, and, where the next step would not fetch, with what that takes:
an Idle core accepts `Execute(1)`, which runs exactly one instruction (60_exceptions.md R184); a Running core with no
budget left gets 1 cycle. DESIGN CHOICE (notes/assumptions/10.md). -/
def State.withFetchWord (s : State) (nbits w : Nat) : State :=
  let placed : State := { s with mem := storeAt s.pc (tableBytes nbits w) s.mem }
  match placed.run with
  | .idle => acceptExecute 1#32 placed
  | .running => if budgetLeft placed then placed else { placed with cyc := 1#32 }

end Sys2Proof.Machine
end

