-- ==== Sys2Proof/Safety.lean ====
section
/-! DEFINITION. The terms claims use: the invariant of the machine, how a run ends, and the spec's tables written
apart from the meanings (spec/43_execute_loop.md R161, spec/60_exceptions.md R173), so that a claim can hold one
against the other. -/

namespace Sys2Proof.Machine

/-! ### States in the terms of the rules -/

/-- The bytes at PC and the two addresses after it, modulo 65536 (30_encoding.md R80, R87). -/
def State.bytesAtPC (s : State) : List Byte :=
  [s.mem.read s.pc.toNat, s.mem.read (s.pc + 1#16).toNat, s.mem.read (s.pc + 2#16).toNat]

/-- The state after `n` bytes at PC were fetched (40_access_primitives.md R100, R101). -/
def State.fetched (s : State) (n : Nat) : State :=
  { s with pc := s.pc + BitVec.ofNat 16 n, cyc := s.cyc - BitVec.ofNat 32 n }

/-- The state after the byte `v` was loaded into A: Z and N follow it (41_load_accumulator.md R120, R129). -/
def loaded (v : Byte) (s : State) : State :=
  { s with a := v, flags := { s.flags with z := decide (v = 0#8), n := decide (0x80 ≤ v.toNat) } }

/-- The spec's state (10_state.md R20): the model's own two fields blanked. -/
def State.architectural (s : State) : State := { s with hostQueue := [], freeIndex := 0 }

/-- The base address (Indirect),Y takes from memory (R103, R128): little-endian, no wrap within the zero page. -/
def State.pointerAt (s : State) (p : Nat) : Nat := 256 * (s.mem.read (p + 1)).toNat + (s.mem.read p).toNat

/-- USED after a raise (60_exceptions.md R174): `REQ - CYC` as `after` holds them, where that fits 32 signed bits, and no
free value was then taken; beyond, nothing is said (notes/assumptions/4.md). -/
def UsedIsReported (before after : State) : Prop :=
  -0x80000000 ≤ after.req.toInt - after.cyc.toInt → after.req.toInt - after.cyc.toInt ≤ 0x7FFFFFFF →
    after.used.toInt = after.req.toInt - after.cyc.toInt ∧ after.freeIndex = before.freeIndex

/-! ### Tables of the spec -/

/-- The offending address of the AddressOutOfRange that an instruction raises, if it raises one (60_exceptions.md R173). -/
def offendingAddress (i : Instr) (s : State) : Option Nat :=
  match i with
  | .ldaAbsX addr => if 0xFFFF < addr.toNat + s.x.toNat then some (addr.toNat + s.x.toNat) else none
  | .ldaAbsY addr => if 0xFFFF < addr.toNat + s.y.toNat then some (addr.toNat + s.y.toNat) else none
  | .ldaIndY zp =>
    if 0xFFFF < s.pointerAt zp.toNat + s.y.toNat then some (s.pointerAt zp.toNat + s.y.toNat) else none
  | .jsr _ => if s.sp = 0xFFFF#16 then some 0x10000 else none
  | .ldaImm _ => none
  | .ldaZp _ => none
  | .ldaZpX _ => none
  | .ldaAbs _ => none
  | .ldaIndX _ => none

/-- One more cycle if adding `idx` to a base with low byte `low` crosses a page (70_reset_and_hazards.md R211). -/
def crossCycle (low idx : Nat) : Nat := if 256 ≤ low + idx then 1 else 0

/-- The cycles one step charges, opcode fetch included, for an instruction that completes and for one that raises
(43_execute_loop.md R161). -/
def cycleTotal (i : Instr) (s : State) : Nat :=
  match i with
  | .ldaImm _ => 2
  | .ldaZp _ => 3
  | .ldaZpX _ => 4
  | .ldaAbs _ => 4
  | .ldaAbsX addr => if (offendingAddress i s).isSome then 4 else 4 + crossCycle (addr.toNat % 256) s.x.toNat
  | .ldaAbsY addr => if (offendingAddress i s).isSome then 4 else 4 + crossCycle (addr.toNat % 256) s.y.toNat
  | .ldaIndX _ => 6
  | .ldaIndY zp =>
    if (offendingAddress i s).isSome then 5 else 5 + crossCycle (s.mem.read zp.toNat).toNat s.y.toNat
  | .jsr _ => if (offendingAddress i s).isSome then 3 else 6

/-! ### The invariant -/

/-- `FAULT_INFO` is of the kind `FAULT` names and its value can arise (10_state.md R38; 30_encoding.md R88). -/
def State.reportConsistent (s : State) : Bool :=
  match s.fault, s.faultInfo with
  | .none, .zero => true
  | .unhandledOpcode, .opcodeAt op _ => (Opcodes.standard.lookup op).isNone
  | .addressOutOfRange, .address a => decide (0x10000 ≤ a.toNat) && decide (a.toNat ≤ 0x100FE)
  | _, _ => false

/-- The range of the counter (43_execute_loop.md R157; 10_state.md R35). -/
def State.counterInRange (s : State) : Bool :=
  if 0 < s.req.toInt then decide (-5 ≤ s.cyc.toInt) && decide (s.cyc.toInt ≤ s.req.toInt) else s.cyc == s.req

/-- While Running no failure is recorded (R150, R174); while Idle USED is `REQ - CYC` where that fits (R155, R174),
and a run that did not fail has used its budget up (R155, R159). -/
def State.reportOfRun (s : State) : Bool :=
  match s.run with
  | .running => s.fault == .none
  | .idle => (!(usedFits s) || s.used == s.req - s.cyc) && (s.fault != .none || decide (s.cyc.toInt ≤ 0))

/-- What holds of the machine between any two steps. -/
structure State.Inv (s : State) : Prop where
  memory  : s.mem.wf = true
  report  : s.reportConsistent = true
  counter : s.counterInRange = true
  run     : s.reportOfRun = true

/-! ### Runs -/

/-- `k` steps of the machine, stopping where a step does not answer a next state (Host/Core.lean's `Core.run`, over the
machine's own types). -/
def runFor : Nat → State → Host.Outcome State Fault Refusal
  | 0, s => .next s
  | k + 1, s =>
    match step s with
    | .next t => runFor k t
    | .fault r => .fault r
    | .refused r => .refused r

/-- A run has ended within `n` steps. -/
def RunEndsWithin (n : Nat) (s : State) : Prop :=
  ∃ k t, k ≤ n ∧ runFor k s = .next t ∧ t.run = .idle

/-- A safe run: it ends, and no failure is recorded (60_exceptions.md R177: a claim about a program takes "the run ended
with `FAULT = 0`" as its premise). -/
def RunEndsSafely (s : State) : Prop :=
  ∃ k t, runFor k s = .next t ∧ t.run = .idle ∧ t.fault = .none

end Sys2Proof.Machine
end

