-- ==== Sys2Proof/Certificates/Slice0/Obligations.lean ====
section
/-! DEFINITION. The statements for the provers. Each docstring names the rule of spec/ it formalises; where it says
"the model's choice", the clause rests on the named entry of notes/assumptions/ and on no rule. -/

open Sys2Proof Sys2Proof.Machine

/-! ### Reset and the host's interface (70_reset_and_hazards.md, 00_scope.md) -/

/-- R200: Reset of an Idle core answers the listed value of every piece of the spec's state, and `State.reset` is that. -/
def Obligations.ResetGivesEveryListedValue : Prop :=
  ∀ s : State, s.run = .idle → ∃ t : State, hostAct .reset s = .next t ∧
    t.pc = 0xFFFC#16 ∧ t.sp = 0x0100#16 ∧ t.a = 0x00#8 ∧ t.x = 0x00#8 ∧ t.y = 0x00#8 ∧
    (∀ f : FlagName, t.flags.get f = false) ∧ (∀ a : Nat, a ≤ 0xFFFF → t.mem.read a = 0x00#8) ∧
    t.cyc = 0#32 ∧ t.req = 0#32 ∧ t.used = 0#32 ∧ t.fault = .none ∧ t.faultInfo = .zero ∧ t.run = .idle ∧
    t.architectural = State.reset

/-- R204: the state after Reset does not depend on the state before it, and a second Reset changes nothing. -/
def Obligations.ResetIsDeterministicAndIdempotent : Prop :=
  ∀ s t : State, s.run = .idle → t.run = .idle →
    ∃ u v : State, hostAct .reset s = .next u ∧ hostAct .reset t = .next v ∧ u.architectural = v.architectural ∧
      hostAct .reset u = .next u

/-- R150: acceptance of Execute, only while Idle, whatever failure the last run recorded (that a command not accepted is
refused by this name is the model's choice, log 13). -/
def Obligations.ExecuteLoadsTheBudgetAndStartsTheRun : Prop :=
  ∀ (s : State) (budget : Cycles),
    (s.run = .idle → hostAct (.execute budget) s =
      .next { s with req := budget, cyc := budget, fault := .none, faultInfo := .zero, run := .running }) ∧
    (s.run = .running → hostAct (.execute budget) s = .refused .hostActionWhileRunning)

/-- R9: while Idle the host writes any cell, register or flag, the value unchanged and nothing else with it, and reads
them; while Running it has no access (an access not given is refused by this name, and a read answers nothing: log 12,
log 13). -/
def Obligations.HostAccessWritesOneItemAndReadsAll : Prop :=
  ∀ s : State,
    (s.run = .idle →
      (∀ v, hostAct (.write8 .a v) s = .next { s with a := v }) ∧
      (∀ v, hostAct (.write8 .x v) s = .next { s with x := v }) ∧
      (∀ v, hostAct (.write8 .y v) s = .next { s with y := v }) ∧
      (∀ v, hostAct (.write16 .pc v) s = .next { s with pc := v }) ∧
      (∀ v, hostAct (.write16 .sp v) s = .next { s with sp := v }) ∧
      (∀ f v, ∃ t : State, hostAct (.writeFlag f v) s = .next t ∧ t = { s with flags := t.flags } ∧
        t.flags.get f = v ∧ ∀ g, g ≠ f → t.flags.get g = s.flags.get g) ∧
      (s.mem.wf = true → ∀ (addr : Addr) v, ∃ t : State, hostAct (.writeMem addr v) s = .next t ∧
        t = { s with mem := t.mem } ∧ t.mem.read addr.toNat = v ∧
        ∀ c : Nat, c ≠ addr.toNat → t.mem.read c = s.mem.read c) ∧
      (∀ addr : Addr, hostReadMem s addr = some (s.mem.read addr.toNat)) ∧
      hostRead8 s .a = some s.a ∧ hostRead8 s .x = some s.x ∧ hostRead8 s .y = some s.y ∧
      hostRead16 s .pc = some s.pc ∧ hostRead16 s .sp = some s.sp ∧
      (∀ f, hostReadFlag s f = some (s.flags.get f))) ∧
    (s.run = .running →
      (∀ act, hostAct act s = .refused .hostActionWhileRunning) ∧ (∀ addr, hostReadMem s addr = none) ∧
      (∀ r, hostRead8 s r = none) ∧ (∀ r, hostRead16 s r = none) ∧ (∀ f, hostReadFlag s f = none))

/-- R63, with the model's choice of a queue (log 2): while Running a step neither reads nor changes the host's queue. -/
def Obligations.RunningCoreIgnoresTheHost : Prop :=
  ∀ (s : State) (q : List HostAction), s.run = .running →
    ∃ t : State, step s = .next t ∧ t.hostQueue = s.hostQueue ∧
      step { s with hostQueue := q } = .next { t with hostQueue := q }

/-- The model's choice (log 2, log 3): an Idle machine does the host's next action, or nothing. -/
def Obligations.IdleStepIsTheNextHostAction : Prop :=
  ∀ s : State, s.run = .idle →
    (s.hostQueue = [] → step s = .next s) ∧
    (∀ act rest, s.hostQueue = act :: rest →
      ∃ t : State, step s = .next t ∧ hostAct act { s with hostQueue := rest } = .next t)

/-! ### The Execute loop (43_execute_loop.md) -/

/-- R151: between instructions the core tests CYC, signed, and nothing else. -/
def Obligations.LoopTestDecidesOnTheCounterAlone : Prop :=
  ∀ s : State, s.run = .running →
    (0 < s.cyc.toInt → step s = instrStep Opcodes.standard s) ∧ (s.cyc.toInt ≤ 0 → step s = .next (endRun s))

/-- R155 where `REQ - CYC` fits USED, and beyond that only that the run ends (the model's free value, log 4);
in states of the invariant a normal end reports REQ to REQ + 5 cycles and no failure. -/
def Obligations.NormalEndReportsTheCyclesUsed : Prop :=
  ∀ s : State, s.run = .running → s.cyc.toInt ≤ 0 →
    ∃ t : State, step s = .next t ∧
      t = { s with run := .idle, used := t.used, freeIndex := t.freeIndex } ∧
      (-0x80000000 ≤ s.req.toInt - s.cyc.toInt → s.req.toInt - s.cyc.toInt ≤ 0x7FFFFFFF →
        t.used.toInt = s.req.toInt - s.cyc.toInt ∧ t.freeIndex = s.freeIndex) ∧
      (s.Inv → 0 < s.req.toInt → s.req.toInt ≤ 0x7FFFFFFA →
        s.req.toInt ≤ t.used.toInt ∧ t.used.toInt ≤ s.req.toInt + 5 ∧ t.fault = .none)

/-- R156: a budget of zero or less runs nothing; only REQ, CYC, USED, FAULT and RUN change, and USED is 0. That the
command comes from the queue and leaves it is the model's choice (log 2). -/
def Obligations.BudgetOfZeroOrLessRunsNothing : Prop :=
  ∀ (s : State) (budget : Cycles) (rest : List HostAction),
    s.run = .idle → s.hostQueue = .execute budget :: rest → budget.toInt ≤ 0 →
      runFor 2 s = .next
        { s with
          hostQueue := rest, req := budget, cyc := budget, used := 0#32, fault := .none, faultInfo := .zero }

/-- R171, R92: an unassigned opcode byte, whatever the assignment, ends the run with UnhandledOpcode; one byte is
consumed, 1 cycle is charged, and nothing else changes but the report, USED among it (R174; beyond 32 bits the model's free
value, log 4). -/
def Obligations.UnassignedOpcodeEndsTheRun : Prop :=
  ∀ (o : Opcodes) (s : State), s.run = .running → 0 < s.cyc.toInt → s.mem.read s.pc.toNat ∉ o.toList →
    ∃ t : State, runStepWith o s = .next t ∧ (o = Opcodes.standard → step s = .next t) ∧
      t = { s with
            pc := s.pc + 1#16, cyc := s.cyc - 1#32, run := .idle, fault := .unhandledOpcode,
            faultInfo := .opcodeAt (s.mem.read s.pc.toNat) s.pc, used := t.used, freeIndex := t.freeIndex } ∧
      UsedIsReported s t

/-- R151, R152: where the bytes at PC decode to an instruction, a step with budget left is its meaning on the state
with those bytes fetched; for every assignment of the opcodes, the default one being the machine's. -/
def Obligations.StepRunsTheDecodedInstruction : Prop :=
  ∀ (o : Opcodes) (s : State) (i : Instr) (rest : List Byte), s.run = .running → 0 < s.cyc.toInt →
    decodeWith o s.bytesAtPC = .ok (i, rest) → i.wellFormed = true →
      runStepWith o s = exec i (s.fetched i.length) ∧
      (o = Opcodes.standard → step s = exec i (s.fetched i.length))

/-- The model's choice (log 10): an instruction placed by `withFetchWord` is what the very next step runs. -/
def Obligations.PlacedInstructionRunsNext : Prop :=
  ∀ (s : State) (nbits w : Nat) (i : Instr), s.mem.wf = true → decodeTableWord nbits w = some i →
    step (s.withFetchWord nbits w) = exec i ((s.withFetchWord nbits w).fetched i.length)

/-- R161 (R211's totals): every step charges the table's cycles, completed or raised: 2 to 6 if completed, 1 for an
unassigned opcode. -/
def Obligations.EveryStepChargesItsTableCycles : Prop :=
  ∀ (o : Opcodes) (s : State), s.run = .running → 0 < s.cyc.toInt →
    (∀ (i : Instr) (rest : List Byte), decodeWith o s.bytesAtPC = .ok (i, rest) →
      (∃ t : State, runStepWith o s = .next t ∧ t.cyc = s.cyc - BitVec.ofNat 32 (cycleTotal i s)) ∧
      (offendingAddress i s = none → 2 ≤ cycleTotal i s ∧ cycleTotal i s ≤ 6)) ∧
    (s.mem.read s.pc.toNat ∉ o.toList → ∃ t : State, runStepWith o s = .next t ∧ t.cyc = s.cyc - 1#32)

/-- R43: how each instruction advances PC; JSR alone does not go on in line. -/
def Obligations.PcAdvancesByTheTable : Prop :=
  ∀ (o : Opcodes) (s : State), s.run = .running → 0 < s.cyc.toInt →
    (∀ (i : Instr) (rest : List Byte), decodeWith o s.bytesAtPC = .ok (i, rest) →
      ∃ t : State, runStepWith o s = .next t ∧
        ((∀ target, i ≠ .jsr target) → t.pc = s.pc + BitVec.ofNat 16 i.length) ∧
        (∀ target, i = .jsr target → s.sp ≠ 0xFFFF#16 → t.pc = target) ∧
        (∀ target, i = .jsr target → s.sp = 0xFFFF#16 → t.pc = s.pc + 3#16)) ∧
    (s.mem.read s.pc.toNat ∉ o.toList → ∃ t : State, runStepWith o s = .next t ∧ t.pc = s.pc + 1#16)

/-- R184: `Execute(1)` runs exactly one instruction: accepted, the instruction, the loop test; where the instruction
raises nothing the run is safe in the sense of R177. That the command comes from the queue is the model's choice (log 2). -/
def Obligations.ExecuteOneRunsOneInstruction : Prop :=
  ∀ (s : State) (i : Instr) (rest : List Byte), s.run = .idle → s.hostQueue = [.execute 1#32] →
    decode s.bytesAtPC = .ok (i, rest) → offendingAddress i s = none →
      ∃ t u : State,
        exec i (({ s with
          hostQueue := [], req := 1#32, cyc := 1#32, fault := .none, faultInfo := .zero, run := .running }
            : State).fetched i.length) = .next t ∧
        runFor 3 s = .next u ∧
        u = { t with run := .idle, used := BitVec.ofNat 32 (cycleTotal i s) } ∧ RunEndsSafely s

/-! ### Primitives (40_access_primitives.md, 20_memory.md) -/

/-- R100, R101: the fetch primitives; PC wraps modulo 65536 and they never raise. -/
def Obligations.FetchReadsAtPcAndAdvances : Prop :=
  ∀ s : State,
    fetchByte s = (s.mem.read s.pc.toNat, { s with pc := s.pc + 1#16, cyc := s.cyc - 1#32 }) ∧
    (s.pc = 0xFFFF#16 → (fetchByte s).2.pc = 0x0000#16) ∧
    (fetchWord s).1.toNat = 256 * (s.mem.read (s.pc + 1#16).toNat).toNat + (s.mem.read s.pc.toNat).toNat ∧
    (fetchWord s).2 = { s with pc := s.pc + 2#16, cyc := s.cyc - 2#32 }

/-- R102, R103: the read primitives at every exact address; a pointer at 0x00FF takes its high byte from 0x0100. -/
def Obligations.ReadChargesOneCycleAByte : Prop :=
  ∀ (s : State) (a : Nat),
    (a ≤ 0xFFFF → readByte a s = .ok (s.mem.read a) { s with cyc := s.cyc - 1#32 }) ∧
    (0xFFFF < a → readByte a s = .raised (.addressOutOfRange (BitVec.ofNat 17 a)) s) ∧
    (a < 0xFFFF → ∃ w : Addr, readWord a s = .ok w { s with cyc := s.cyc - 2#32 } ∧
      w.toNat = 256 * (s.mem.read (a + 1)).toNat + (s.mem.read a).toNat) ∧
    (a = 0xFFFF → readWord a s = .raised (.addressOutOfRange 0x10000#17) { s with cyc := s.cyc - 1#32 }) ∧
    (0xFFFF < a → readWord a s = .raised (.addressOutOfRange (BitVec.ofNat 17 a)) s)

/-- R104: the word store, low byte first; at 0xFFFF the low byte stays stored and nothing is charged. -/
def Obligations.WriteWordStoresLowByteFirst : Prop :=
  ∀ (s : State) (v a : Addr), s.mem.wf = true →
    (a ≠ 0xFFFF#16 → ∃ t : State, writeWord v a s = .ok () t ∧
      t = { s with mem := t.mem, cyc := s.cyc - 2#32 } ∧
      (t.mem.read a.toNat).toNat = v.toNat % 256 ∧ (t.mem.read (a.toNat + 1)).toNat = v.toNat / 256 ∧
      ∀ c : Nat, c ≠ a.toNat → c ≠ a.toNat + 1 → t.mem.read c = s.mem.read c) ∧
    (a = 0xFFFF#16 → ∃ t : State, writeWord v a s = .raised (.addressOutOfRange 0x10000#17) t ∧
      t = { s with mem := t.mem } ∧ (t.mem.read 0xFFFF).toNat = v.toNat % 256 ∧
      ∀ c : Nat, c ≠ 0xFFFF → t.mem.read c = s.mem.read c)

/-- R52, R53: the raw operations: a read changes nothing, a write changes one cell, above 0xFFFF both raise. -/
def Obligations.RawAccessTouchesOneCell : Prop :=
  ∀ (s : State) (a : Nat) (v : Byte), s.mem.wf = true →
    (a ≤ 0xFFFF →
      memRead a s = .ok (s.mem.read a) s ∧
      ∃ t : State, memWrite a v s = .ok () t ∧ t = { s with mem := t.mem } ∧ t.mem.wf = true ∧
        memRead a t = .ok v t ∧ ∀ c : Nat, c ≠ a → t.mem.read c = s.mem.read c) ∧
    (0xFFFF < a →
      memRead a s = .raised (.addressOutOfRange (BitVec.ofNat 17 a)) s ∧
      memWrite a v s = .raised (.addressOutOfRange (BitVec.ofNat 17 a)) s)

/-- The memory's form: two memories in canonical form that read alike at every address are the same data (R39). -/
def Obligations.CanonicalMemoriesThatReadAlikeAreEqual : Prop :=
  ∀ m m' : Memory, m.wf = true → m'.wf = true → (∀ a : Nat, a ≤ 0xFFFF → m.read a = m'.read a) → m = m'

/-- R105: Z and N follow A, nothing else changes, and both are never set. -/
def Obligations.LoadFlagsFollowTheAccumulator : Prop :=
  ∀ s : State, ∃ t : State, updateLoadFlags s = t ∧ t = { s with flags := { s.flags with z := t.flags.z, n := t.flags.n } } ∧
    (t.flags.z = true ↔ s.a.toNat = 0) ∧ (t.flags.n = true ↔ 0x80 ≤ s.a.toNat) ∧
    ¬ (t.flags.z = true ∧ t.flags.n = true)

/-- R106: a page cross is a change of the high byte, equivalently a carry out of the low-byte addition, and happens
whenever the sum leaves memory. -/
def Obligations.PageCrossIsTheCarryOfTheLowByte : Prop :=
  ∀ (base : Addr) (idx : Byte),
    (pageCross base (base.toNat + idx.toNat) = true ↔ base.toNat / 256 ≠ (base.toNat + idx.toNat) / 256) ∧
    (pageCross base (base.toNat + idx.toNat) = true ↔ 256 ≤ base.toNat % 256 + idx.toNat) ∧
    (0xFFFF < base.toNat + idx.toNat → pageCross base (base.toNat + idx.toNat) = true)

/-- R110: the other detection, recorded and not this hardware's, charges exactly for index 0xFF; the two agree on the
document's example and differ at the two operands the rule names. -/
def Obligations.ThresholdPolicyIsNotThisHardware : Prop :=
  (∀ (base : Addr) (idx : Byte),
    pageCrossBy .thresholdFF base (base.toNat + idx.toNat) = true ↔ idx = 0xFF#8) ∧
  pageCross 0x44C0#16 (0x44C0 + 0xFF) = true ∧ pageCrossBy .thresholdFF 0x44C0#16 (0x44C0 + 0xFF) = true ∧
  pageCross 0x44C0#16 (0x44C0 + 0x40) = true ∧ pageCrossBy .thresholdFF 0x44C0#16 (0x44C0 + 0x40) = false ∧
  pageCross 0x4400#16 (0x4400 + 0xFF) = false ∧ pageCrossBy .thresholdFF 0x4400#16 (0x4400 + 0xFF) = true

/-! ### What each instruction does (41_load_accumulator.md, 42_control_transfer.md)

Each result is that of the meaning on the state with the instruction's bytes fetched (`StepRunsTheDecodedInstruction`
says that a step is this); `s` is the state before the opcode fetch, so `s.pc` is the rule's `PC0` and the charge is the
rule's total. The opcode bytes are parameters (R85): the encoding is stated for every assignment of them, and no clause rests on a
default value but the document's own 0xA9. Where an instruction raises, USED is REQ - CYC at the raise (R174); beyond 32
bits the model's free value, log 4. -/

/-- R121: LDA Immediate. -/
def Obligations.LdaImmediateResult : Prop :=
  ∀ (s : State) (imm : Byte),
    exec (.ldaImm imm) (s.fetched 2) = .next (loaded imm { s with pc := s.pc + 2#16, cyc := s.cyc - 2#32 }) ∧
    (Instr.ldaImm imm).form.format = .opImm8 ∧ (Instr.ldaImm imm).length = 2 ∧ encode (.ldaImm imm) = [0xA9#8, imm]

/-- R122: LDA Zero-page. -/
def Obligations.LdaZeroPageResult : Prop :=
  ∀ (s : State) (zp : Byte),
    exec (.ldaZp zp) (s.fetched 2) =
      .next (loaded (s.mem.read zp.toNat)
        { s with pc := s.pc + 2#16, cyc := s.cyc - 3#32 }) ∧
    (Instr.ldaZp zp).form.format = .opZp8 ∧ (Instr.ldaZp zp).length = 2 ∧
    ∀ o : Opcodes, encodeWith o (.ldaZp zp) = [o.ldaZp, zp]

/-- R123: LDA Zero-page,X: the sum wraps modulo 256, always 4 cycles. -/
def Obligations.LdaZeroPageXResult : Prop :=
  ∀ (s : State) (zp : Byte),
    exec (.ldaZpX zp) (s.fetched 2) =
      .next (loaded (s.mem.read ((zp.toNat + s.x.toNat) % 256))
        { s with pc := s.pc + 2#16, cyc := s.cyc - 4#32 }) ∧
    (Instr.ldaZpX zp).form.format = .opZp8 ∧ (Instr.ldaZpX zp).length = 2 ∧
    ∀ o : Opcodes, encodeWith o (.ldaZpX zp) = [o.ldaZpX, zp]

/-- R124: LDA Absolute. -/
def Obligations.LdaAbsoluteResult : Prop :=
  ∀ (s : State) (addr : Addr),
    exec (.ldaAbs addr) (s.fetched 3) =
      .next (loaded (s.mem.read addr.toNat)
        { s with pc := s.pc + 3#16, cyc := s.cyc - 4#32 }) ∧
    (Instr.ldaAbs addr).form.format = .opAbs16 ∧ (Instr.ldaAbs addr).length = 3 ∧
    ∀ o : Opcodes, encodeWith o (.ldaAbs addr) = [o.ldaAbs, lo8 addr, hi8 addr]

/-- R125: LDA Absolute,X, within memory and above it. -/
def Obligations.LdaAbsoluteXResult : Prop :=
  ∀ (s : State) (addr : Addr),
    (addr.toNat + s.x.toNat ≤ 0xFFFF → addr.toNat % 256 + s.x.toNat < 256 →
      exec (.ldaAbsX addr) (s.fetched 3) =
        .next (loaded (s.mem.read (addr.toNat + s.x.toNat))
          { s with pc := s.pc + 3#16, cyc := s.cyc - 4#32 })) ∧
    (addr.toNat + s.x.toNat ≤ 0xFFFF → 256 ≤ addr.toNat % 256 + s.x.toNat →
      exec (.ldaAbsX addr) (s.fetched 3) =
        .next (loaded (s.mem.read (addr.toNat + s.x.toNat))
          { s with pc := s.pc + 3#16, cyc := s.cyc - 5#32 })) ∧
    (0xFFFF < addr.toNat + s.x.toNat → ∃ t : State, exec (.ldaAbsX addr) (s.fetched 3) = .next t ∧
      t = { s with
            pc := s.pc + 3#16, cyc := s.cyc - 4#32, run := .idle, fault := .addressOutOfRange,
            faultInfo := .address (BitVec.ofNat 17 (addr.toNat + s.x.toNat)), used := t.used,
            freeIndex := t.freeIndex } ∧
      UsedIsReported s t) ∧
    (Instr.ldaAbsX addr).form.format = .opAbs16 ∧ (Instr.ldaAbsX addr).length = 3 ∧
    ∀ o : Opcodes, encodeWith o (.ldaAbsX addr) = [o.ldaAbsX, lo8 addr, hi8 addr]

/-- R126: LDA Absolute,Y, within memory and above it. -/
def Obligations.LdaAbsoluteYResult : Prop :=
  ∀ (s : State) (addr : Addr),
    (addr.toNat + s.y.toNat ≤ 0xFFFF → addr.toNat % 256 + s.y.toNat < 256 →
      exec (.ldaAbsY addr) (s.fetched 3) =
        .next (loaded (s.mem.read (addr.toNat + s.y.toNat))
          { s with pc := s.pc + 3#16, cyc := s.cyc - 4#32 })) ∧
    (addr.toNat + s.y.toNat ≤ 0xFFFF → 256 ≤ addr.toNat % 256 + s.y.toNat →
      exec (.ldaAbsY addr) (s.fetched 3) =
        .next (loaded (s.mem.read (addr.toNat + s.y.toNat))
          { s with pc := s.pc + 3#16, cyc := s.cyc - 5#32 })) ∧
    (0xFFFF < addr.toNat + s.y.toNat → ∃ t : State, exec (.ldaAbsY addr) (s.fetched 3) = .next t ∧
      t = { s with
            pc := s.pc + 3#16, cyc := s.cyc - 4#32, run := .idle, fault := .addressOutOfRange,
            faultInfo := .address (BitVec.ofNat 17 (addr.toNat + s.y.toNat)), used := t.used,
            freeIndex := t.freeIndex } ∧
      UsedIsReported s t) ∧
    (Instr.ldaAbsY addr).form.format = .opAbs16 ∧ (Instr.ldaAbsY addr).length = 3 ∧
    ∀ o : Opcodes, encodeWith o (.ldaAbsY addr) = [o.ldaAbsY, lo8 addr, hi8 addr]

/-- R127: LDA (Indirect,X): the pointer wraps modulo 256, its second byte does not, always 6 cycles. -/
def Obligations.LdaIndirectXResult : Prop :=
  ∀ (s : State) (zp : Byte),
    exec (.ldaIndX zp) (s.fetched 2) =
      .next (loaded (s.mem.read (s.pointerAt ((zp.toNat + s.x.toNat) % 256)))
        { s with pc := s.pc + 2#16, cyc := s.cyc - 6#32 }) ∧
    (Instr.ldaIndX zp).form.format = .opZp8 ∧ (Instr.ldaIndX zp).length = 2 ∧
    ∀ o : Opcodes, encodeWith o (.ldaIndX zp) = [o.ldaIndX, zp]

/-- R128: LDA (Indirect),Y, within memory and above it. -/
def Obligations.LdaIndirectYResult : Prop :=
  ∀ (s : State) (zp : Byte) (base : Nat), base = s.pointerAt zp.toNat →
    (base + s.y.toNat ≤ 0xFFFF → base % 256 + s.y.toNat < 256 →
      exec (.ldaIndY zp) (s.fetched 2) =
        .next (loaded (s.mem.read (base + s.y.toNat))
          { s with pc := s.pc + 2#16, cyc := s.cyc - 5#32 })) ∧
    (base + s.y.toNat ≤ 0xFFFF → 256 ≤ base % 256 + s.y.toNat →
      exec (.ldaIndY zp) (s.fetched 2) =
        .next (loaded (s.mem.read (base + s.y.toNat))
          { s with pc := s.pc + 2#16, cyc := s.cyc - 6#32 })) ∧
    (0xFFFF < base + s.y.toNat → ∃ t : State, exec (.ldaIndY zp) (s.fetched 2) = .next t ∧
      t = { s with
            pc := s.pc + 2#16, cyc := s.cyc - 5#32, run := .idle, fault := .addressOutOfRange,
            faultInfo := .address (BitVec.ofNat 17 (base + s.y.toNat)), used := t.used, freeIndex := t.freeIndex } ∧
      UsedIsReported s t) ∧
    (Instr.ldaIndY zp).form.format = .opZp8 ∧ (Instr.ldaIndY zp).length = 2 ∧
    ∀ o : Opcodes, encodeWith o (.ldaIndY zp) = [o.ldaIndY, zp]

/-- R140: JSR pushes the address of its own last byte at SP, low byte first, adds 2 to SP and goes to the target, 6
cycles; at SP = 0xFFFF the low byte is stored and the run ends. -/
def Obligations.JsrResult : Prop :=
  ∀ (s : State) (target ret : Addr), ret = s.pc + 2#16 →
    (s.sp ≠ 0xFFFF#16 → ∃ t : State, exec (.jsr target) (s.fetched 3) = .next t ∧
      t = { s with mem := t.mem, sp := s.sp + 2#16, pc := target, cyc := s.cyc - 6#32 } ∧
      (s.mem.wf = true →
        (t.mem.read s.sp.toNat).toNat = ret.toNat % 256 ∧ (t.mem.read (s.sp.toNat + 1)).toNat = ret.toNat / 256 ∧
        ∀ c : Nat, c ≠ s.sp.toNat → c ≠ s.sp.toNat + 1 → t.mem.read c = s.mem.read c)) ∧
    (s.sp = 0xFFFF#16 → ∃ t : State, exec (.jsr target) (s.fetched 3) = .next t ∧
      t = { s with
            mem := t.mem, pc := s.pc + 3#16, cyc := s.cyc - 3#32, run := .idle, fault := .addressOutOfRange,
            faultInfo := .address 0x10000#17, used := t.used, freeIndex := t.freeIndex } ∧
      UsedIsReported s t ∧
      (s.mem.wf = true → (t.mem.read 0xFFFF).toNat = ret.toNat % 256 ∧
        ∀ c : Nat, c ≠ 0xFFFF → t.mem.read c = s.mem.read c)) ∧
    (Instr.jsr target).form.format = .opAbs16 ∧ (Instr.jsr target).length = 3 ∧
    ∀ o : Opcodes, encodeWith o (.jsr target) = [o.jsr, lo8 target, hi8 target]

/-- R129: the flag outcomes, the same in all eight modes: where the load completed, by the value now in A. -/
def Obligations.LoadFlagOutcomesInEveryMode : Prop :=
  ∀ (i : Instr) (s t : State), i.form ≠ .jsr → s.run = .running → exec i s = .next t → t.run = .running →
    (t.a.toNat = 0 → t.flags = { s.flags with z := true, n := false }) ∧
    (1 ≤ t.a.toNat → t.a.toNat ≤ 0x7F → t.flags = { s.flags with z := false, n := false }) ∧
    (0x80 ≤ t.a.toNat → t.flags = { s.flags with z := false, n := true })

/-- Frame of LDA in all eight modes (R120): no store, and beside A, Z, N (which follow the new A) and CYC nothing
changes; where the mode raised, A and all flags keep their values and only the report of the run changes. -/
def Obligations.LoadFrame : Prop :=
  ∀ (i : Instr) (s t : State), i.form ≠ .jsr → exec i s = .next t →
    t.x = s.x ∧ t.y = s.y ∧ t.sp = s.sp ∧ t.pc = s.pc ∧ t.req = s.req ∧ t.hostQueue = s.hostQueue ∧
    t.flags.c = s.flags.c ∧ t.flags.i = s.flags.i ∧ t.flags.d = s.flags.d ∧ t.flags.b = s.flags.b ∧
    t.flags.v = s.flags.v ∧ (∀ a : Nat, t.mem.read a = s.mem.read a) ∧
    ((t.run = s.run ∧ t.fault = s.fault ∧ t.faultInfo = s.faultInfo ∧ t.used = s.used ∧ t.freeIndex = s.freeIndex ∧
        (t.flags.z = true ↔ t.a.toNat = 0) ∧ (t.flags.n = true ↔ 0x80 ≤ t.a.toNat) ∧ offendingAddress i s = none) ∨
      (t.a = s.a ∧ t.flags = s.flags ∧ t.run = .idle ∧ t.fault = .addressOutOfRange ∧
        (offendingAddress i s).isSome))

/-- Frame of JSR (R140): the bytes stored to are those at `s.sp` and the address after it; the registers it also
updates are SP and PC, and, where it raised, the report of the run. -/
def Obligations.JsrFrame : Prop :=
  ∀ (target : Addr) (s t : State), s.mem.wf = true → exec (.jsr target) s = .next t →
    t.a = s.a ∧ t.x = s.x ∧ t.y = s.y ∧ t.flags = s.flags ∧ t.req = s.req ∧ t.hostQueue = s.hostQueue ∧
    (∀ c : Nat, c ≠ s.sp.toNat → c ≠ s.sp.toNat + 1 → t.mem.read c = s.mem.read c) ∧
    (s.sp ≠ 0xFFFF#16 → t.run = s.run ∧ t.fault = s.fault ∧ t.faultInfo = s.faultInfo ∧ t.used = s.used ∧
      t.freeIndex = s.freeIndex) ∧
    (s.sp = 0xFFFF#16 → t.sp = s.sp ∧ t.pc = s.pc)

/-- R141: after a JSR the word below the new SP is the address of its last byte, and the next instruction in line is at
that value plus 1. -/
def Obligations.ReturnAddressIsRecoverable : Prop :=
  ∀ (o : Opcodes) (s : State) (target : Addr) (rest : List Byte), s.mem.wf = true → s.run = .running →
    0 < s.cyc.toInt → decodeWith o s.bytesAtPC = .ok (.jsr target, rest) → s.sp ≠ 0xFFFF#16 →
      ∃ t : State, runStepWith o s = .next t ∧
        wordOf (t.mem.read (t.sp - 1#16).toNat) (t.mem.read (t.sp - 2#16).toNat) = s.pc + 2#16 ∧
        wordOf (t.mem.read (t.sp - 1#16).toNat) (t.mem.read (t.sp - 2#16).toNat) + 1#16 =
          s.pc + BitVec.ofNat 16 (Instr.jsr target).length

/-- R62, R209: a JSR whose stack write lands on its own target fetches the bytes it has just written there. -/
def Obligations.FetchSeesTheStackWrite : Prop :=
  ∀ (o : Opcodes) (s : State) (rest : List Byte), s.mem.wf = true → s.run = .running → 0 < s.cyc.toInt →
    decodeWith o s.bytesAtPC = .ok (.jsr s.sp, rest) → s.sp ≠ 0xFFFF#16 →
      ∃ t : State, runStepWith o s = .next t ∧ t.pc = s.sp ∧
        (t.bytesAtPC.take 2).map BitVec.toNat = [(s.pc + 2#16).toNat % 256, (s.pc + 2#16).toNat / 256]

/-! ### Faults (60_exceptions.md) -/

/-- R173: where AddressOutOfRange is raised and with which address, for every instruction, and nowhere else. -/
def Obligations.OutOfRangeIsRaisedByTheTable : Prop :=
  ∀ (i : Instr) (s : State), s.run = .running →
    ∃ t : State, exec i s = .next t ∧ (t.run = .idle ↔ (offendingAddress i s).isSome) ∧
      ∀ a : Nat, offendingAddress i s = some a →
        t.fault = .addressOutOfRange ∧ t.faultInfo = .address (BitVec.ofNat 17 a) ∧ 0x10000 ≤ a ∧ a ≤ 0x100FE

/-- R174: fault entry records the failure and ends the run and does nothing else; USED is `REQ - CYC` where that fits
(the model's free value beyond, log 4). -/
def Obligations.FaultEntryRecordsAndEndsTheRun : Prop :=
  ∀ (s : State) (r : Raise),
    takeFault r s = { s with
      fault := r.code, faultInfo := r.info, run := .idle, used := (takeFault r s).used,
      freeIndex := (takeFault r s).freeIndex } ∧
    (-0x80000000 ≤ s.req.toInt - s.cyc.toInt → s.req.toInt - s.cyc.toInt ≤ 0x7FFFFFFF →
      (takeFault r s).used.toInt = s.req.toInt - s.cyc.toInt ∧ (takeFault r s).freeIndex = s.freeIndex) ∧
    (∀ op pc, (Raise.unhandledOpcode op pc).code.bits = 1#2 ∧ (Raise.unhandledOpcode op pc).info = .opcodeAt op pc) ∧
    (∀ a, (Raise.addressOutOfRange a).code.bits = 2#2 ∧ (Raise.addressOutOfRange a).info = .address a)

/-! ### Rules about the whole machine -/

/-- R22, R23: X and Y change only by Reset and by a host write (that the host's actions come from a queue is the model's
choice, log 2). -/
def Obligations.IndexRegistersChangeOnlyByTheHost : Prop :=
  ∀ s t : State, step s = .next t →
    (t.x ≠ s.x → s.run = .idle ∧ ∃ rest, s.hostQueue = .reset :: rest ∨ ∃ v, s.hostQueue = .write8 .x v :: rest) ∧
    (t.y ≠ s.y → s.run = .idle ∧ ∃ rest, s.hostQueue = .reset :: rest ∨ ∃ v, s.hostQueue = .write8 .y v :: rest)

/-- R29 to R33: C, I, D, B and V are written by no instruction, change only by Reset (to 0) and by a host write, and
have no effect on execution. That the host's actions come from a queue is the model's choice (log 2). -/
def Obligations.FiveFlagsAreInert : Prop :=
  ∀ (s : State) (f : FlagName), f ≠ .z → f ≠ .n →
    (∀ t : State, step s = .next t → t.flags.get f ≠ s.flags.get f →
      s.run = .idle ∧ ∃ rest, (s.hostQueue = .reset :: rest ∧ t.flags.get f = false) ∨
        ∃ v, s.hostQueue = .writeFlag f v :: rest) ∧
    (∀ v : Bool, s.run = .running → ∃ t : State, step s = .next t ∧
      step { s with flags := s.flags.set f v } = .next { t with flags := t.flags.set f v })

/-- R40: no rule of execution reads REQ, USED, FAULT or FAULT_INFO: two Running machines that differ in those alone
stay alike in everything else. -/
def Obligations.ExecutionDoesNotReadTheReport : Prop :=
  ∀ (s : State) (req used : Cycles) (fault : FaultCode) (info : FaultInfo), s.run = .running →
    ∃ t u : State, step s = .next t ∧
      step { s with req := req, used := used, fault := fault, faultInfo := info } = .next u ∧
      u = { t with req := u.req, used := u.used, fault := u.fault, faultInfo := u.faultInfo, freeIndex := u.freeIndex }

/-- R21, R120: a load that completes discards the old accumulator unread. -/
def Obligations.OldAccumulatorIsDiscardedUnread : Prop :=
  ∀ (i : Instr) (s : State) (v : Byte), i.form ≠ .jsr → s.run = .running → offendingAddress i s = none →
    ∃ t : State, exec i s = .next t ∧ exec i { s with a := v } = .next t

/-- R39: who writes memory: Reset, a host write to that cell (from the queue, the model's choice, log 2), and JSR at SP
and SP + 1. -/
def Obligations.MemoryChangesOnlyByItsWriters : Prop :=
  ∀ (s t : State) (c : Nat), s.mem.wf = true → step s = .next t → t.mem.read c ≠ s.mem.read c →
    (s.run = .idle ∧ ∃ rest, s.hostQueue = .reset :: rest ∨
      ∃ addr v, s.hostQueue = .writeMem addr v :: rest ∧ c = addr.toNat) ∨
    (s.run = .running ∧ s.mem.read s.pc.toNat = Opcodes.standard.jsr ∧ (c = s.sp.toNat ∨ c = s.sp.toNat + 1))

/-- R25: while Running SP stays or grows by 2 modulo 65536, and grows only by a JSR. -/
def Obligations.StackPointerGrowsByTwoPerJsr : Prop :=
  ∀ (o : Opcodes) (s t : State), runStepWith o s = .next t →
    t.sp = s.sp ∨ (t.sp = s.sp + 2#16 ∧ s.sp ≠ 0xFFFF#16 ∧ o.lookup (s.mem.read s.pc.toNat) = some .jsr)

/-! ### Encoding (30_encoding.md) -/

/-- Decoding what was encoded gives the instruction back, under every assignment of the opcodes that R85 admits. -/
def Obligations.DecodeOfEncode : Prop :=
  ∀ (o : Opcodes) (i : Instr) (rest : List Byte), o.wellFormed = true → i.wellFormed = true →
    decodeWith o (encodeWith o i ++ rest) = .ok (i, rest)

/-- What decodes is the encoding of what it decodes to, with nothing dropped, under every assignment of the opcodes. -/
def Obligations.EncodeOfDecode : Prop :=
  ∀ (o : Opcodes) (bytes rest : List Byte) (i : Instr), decodeWith o bytes = .ok (i, rest) →
    bytes = encodeWith o i ++ rest

/-- R88: every byte that is none of the nine opcodes is refused as unassigned, and no other is; nothing after it is
interpreted. -/
def Obligations.ExactlyTheOtherBytesAreUnassigned : Prop :=
  ∀ (o : Opcodes) (op : Byte) (rest : List Byte),
    op ∉ o.toList ↔ decodeWith o (op :: rest) = .error (.unassigned op)

/-- Words written out from the formats of R81 with the opcode bytes of R84 (0xA9 the document's, the others general
knowledge, log 1) decode to what they stand for, and 0xFF and 0x00 to nothing. -/
def Obligations.WordsWrittenOutDecode : Prop :=
  decode [0xA9#8, 0x84#8] = .ok (.ldaImm 0x84#8, []) ∧
  decode [0xB5#8, 0x42#8] = .ok (.ldaZpX 0x42#8, []) ∧
  decode [0xBD#8, 0xC0#8, 0x44#8] = .ok (.ldaAbsX 0x44C0#16, []) ∧
  decode [0x20#8, 0x00#8, 0x80#8] = .ok (.jsr 0x8000#16, []) ∧
  decode [0xFF#8] = .error (.unassigned 0xFF#8) ∧ decode [0x00#8] = .error (.unassigned 0x00#8)

/-- The default assignment (log 1) meets the constraints of R85. -/
def Obligations.DefaultOpcodesMeetTheConstraints : Prop :=
  Opcodes.standard.wellFormed = true

/-! ### Invariants and runs -/

/-- The invariant holds right after Reset. -/
def Obligations.InvariantHoldsAtReset : Prop :=
  State.reset.Inv

/-- Every step, of the core and of the host, keeps the invariant: memory in canonical form, the failure report of one
piece, CYC in range, USED equal to `REQ - CYC` (R38, R155, R157, R174). -/
def Obligations.InvariantIsKeptByEveryStep : Prop :=
  ∀ s t : State, s.Inv → step s = .next t → t.Inv

/-- The machine never stops: every step of every state answers a next state (both failures are taken, R174; a host
action is never tried while Running, R210). -/
def Obligations.EveryStepAnswersANextState : Prop :=
  ∀ s : State, ∃ t : State, step s = .next t

/-- R157: along any run from a state of the invariant, CYC stays between -5 and REQ wherever REQ is positive, and is
REQ wherever it is not. -/
def Obligations.CounterStaysInRangeAlongRuns : Prop :=
  ∀ (s t : State) (k : Nat), s.Inv → runFor k s = .next t →
    (0 < t.req.toInt → -5 ≤ t.cyc.toInt ∧ t.cyc.toInt ≤ t.req.toInt) ∧ (t.req.toInt ≤ 0 → t.cyc = t.req)

/-- R159: every run ends: from any Running state, after at most half the remaining budget, rounded up, in instruction
steps and one loop test. -/
def Obligations.EveryRunEnds : Prop :=
  ∀ s : State, s.run = .running → RunEndsWithin ((s.cyc.toInt.toNat + 1) / 2 + 1) s

/-- R109, R155, R156: what the machine reports when a step leaves it Idle, from any state of the invariant: USED between 0
and REQ + 5, at least REQ if the run did not fail, and 0 for a budget of zero or less (REQ above 0x7FFFFFFA left out: there
USED may be the model's free value, log 4). -/
def Obligations.ReportedCyclesAreInRange : Prop :=
  ∀ s t : State, s.Inv → step s = .next t → t.run = .idle →
    (0 < t.req.toInt → t.req.toInt ≤ 0x7FFFFFFA →
      0 ≤ t.used.toInt ∧ t.used.toInt ≤ t.req.toInt + 5 ∧ (t.fault = .none → t.req.toInt ≤ t.used.toInt)) ∧
    (t.req.toInt ≤ 0 → t.used = 0#32)

/-- R205: at power-on RUN is Idle and every other piece of state is unspecified, so every Idle state is a machine at
power-on; its first Reset is accepted and leaves the reset state and the invariant, whatever the machine held. That the
Reset comes from the head of a queue is the model's choice (log 2). -/
def Obligations.FirstResetDefinesThePoweredOnMachine : Prop :=
  (∀ s : State, s.run = .idle ↔ ∃ unspecified : State, s = State.powerOn unspecified) ∧
  ∀ unspecified : State,
    (∃ t : State, hostAct .reset (State.powerOn unspecified) = .next t ∧ t.architectural = State.reset ∧ t.Inv) ∧
    ∀ rest, unspecified.hostQueue = .reset :: rest →
      ∃ t : State, step (State.powerOn unspecified) = .next t ∧ t.architectural = State.reset ∧ t.hostQueue = rest ∧ t.Inv
end

