-- ==== Sys2Proof/Laws/Decode.lean ====
section
/-! SUPPORT. Bytes and words, and the opcode lookup (spec/30_encoding.md R82, R84, R85). -/

namespace Sys2Proof

@[simp] theorem toNat_lo8 (v : Addr) : (lo8 v).toNat = v.toNat % 256 := by simp [lo8]

@[simp] theorem toNat_hi8 (v : Addr) : (hi8 v).toNat = v.toNat / 256 := by
  have := v.isLt
  simp [hi8]
  omega

@[simp] theorem toNat_wordOf (hi lo : Byte) : (wordOf hi lo).toNat = 256 * hi.toNat + lo.toNat := by
  have := hi.isLt
  have := lo.isLt
  simp [wordOf]
  omega

@[simp] theorem wordOf_hi8_lo8 (v : Addr) : wordOf (hi8 v) (lo8 v) = v := by
  apply BitVec.eq_of_toNat_eq
  simp
  omega

@[simp] theorem lo8_wordOf (hi lo : Byte) : lo8 (wordOf hi lo) = lo := by
  apply BitVec.eq_of_toNat_eq
  have := lo.isLt
  simp
  omega

@[simp] theorem hi8_wordOf (hi lo : Byte) : hi8 (wordOf hi lo) = hi := by
  apply BitVec.eq_of_toNat_eq
  have := lo.isLt
  simp
  omega

/-- The nine values of an assignment, by form. -/
theorem Opcodes.toList_eq (o : Opcodes) : o.toList = Form.all.map o.code := rfl

theorem Form.mem_all (f : Form) : f ∈ Form.all := by cases f <;> simp [Form.all]

/-- A found form has the byte it was found by. -/
theorem Opcodes.code_of_lookup {o : Opcodes} {b : Byte} {f : Form} (h : o.lookup b = some f) : o.code f = b := by
  simpa using List.find?_some h

/-- No form is found exactly for the bytes that are no opcode (R88). -/
theorem Opcodes.lookup_eq_none {o : Opcodes} {b : Byte} : o.lookup b = none ↔ b ∉ o.toList := by
  simp [Opcodes.lookup, Opcodes.toList_eq]

/-- With distinct values every form is found by its own byte (R85). -/
theorem Opcodes.lookup_code {o : Opcodes} (h : o.distinct = true) (f : Form) : o.lookup (o.code f) = some f := by
  have hd : (Form.all.map o.code).Nodup := of_decide_eq_true h
  cases hf : o.lookup (o.code f) with
  | none => exact absurd (List.mem_map_of_mem (Form.mem_all f)) (Opcodes.lookup_eq_none.1 hf)
  | some g =>
    exact congrArg some (List.inj_on_of_nodup_map hd (Form.mem_all g) (Form.mem_all f) (Opcodes.code_of_lookup hf))

end Sys2Proof
end

