-- ==== Sys2Proof/Laws/Memory.lean ====
section
/-! SUPPORT. Memory: read after write, and the canonical form (spec/20_memory.md R52, R53). -/

namespace Sys2Proof.Machine

@[simp] theorem Memory.read_nil (a : Nat) : Memory.read [] a = Memory.unlisted := rfl

theorem Memory.read_cons (b : Nat) (w : Byte) (m : Memory) (a : Nat) :
    Memory.read ((b, w) :: m) a = if b = a then w else Memory.read m a := rfl

theorem Memory.wfFrom_cons (lo a : Nat) (v : Byte) (m : Memory) :
    Memory.wfFrom lo ((a, v) :: m) = true ↔
      lo ≤ a ∧ a < Config.memSize ∧ v ≠ Memory.unlisted ∧ Memory.wfFrom (a + 1) m = true := by
  simp [Memory.wfFrom, and_assoc]

/-- A lower bound of the listed addresses may be lowered. -/
theorem Memory.wfFrom_mono {lo lo' : Nat} (h : lo' ≤ lo) : ∀ {m : Memory}, Memory.wfFrom lo m = true →
    Memory.wfFrom lo' m = true
  | [], _ => rfl
  | (a, v) :: m, hm => by
    rw [Memory.wfFrom_cons] at hm ⊢
    exact ⟨h.trans hm.1, hm.2⟩

/-- Below the lowest listed address every cell reads as an unlisted one. -/
theorem Memory.read_below : ∀ {lo : Nat} {m : Memory}, Memory.wfFrom lo m = true → ∀ {a : Nat}, a < lo →
    m.read a = Memory.unlisted
  | _, [], _, _, _ => rfl
  | lo, (b, w) :: m, h, a, ha => by
    rw [Memory.wfFrom_cons] at h
    rw [Memory.read_cons, if_neg (by omega), Memory.read_below h.2.2.2 (by omega)]

/-- A write keeps the canonical form above a bound that lies below it. -/
theorem Memory.wfFrom_write : ∀ {lo : Nat} {m : Memory} {a : Nat} (v : Byte), Memory.wfFrom lo m = true → lo ≤ a →
    a < Config.memSize → Memory.wfFrom lo (m.write a v) = true
  | lo, [], a, v, _, hlo, ha => by
    unfold Memory.write
    split
    · rfl
    · rw [Memory.wfFrom_cons]; exact ⟨hlo, ha, ‹_›, rfl⟩
  | lo, (b, w) :: m, a, v, h, hlo, ha => by
    have h' := (Memory.wfFrom_cons ..).1 h
    unfold Memory.write
    split
    · split
      · exact h
      · rw [Memory.wfFrom_cons, Memory.wfFrom_cons]; exact ⟨hlo, ha, ‹_›, by omega, h'.2⟩
    · split
      · split
        · exact Memory.wfFrom_mono (by omega) h'.2.2.2
        · rw [Memory.wfFrom_cons]; exact ⟨hlo, ha, ‹_›, by subst_vars; exact h'.2.2.2⟩
      · rw [Memory.wfFrom_cons]
        exact ⟨h'.1, h'.2.1, h'.2.2.1, Memory.wfFrom_write v h'.2.2.2 (by omega) ha⟩

/-- A write keeps the canonical form. -/
theorem Memory.wf_write {m : Memory} {a : Nat} (v : Byte) (h : m.wf = true) (ha : a < Config.memSize) :
    (m.write a v).wf = true :=
  Memory.wfFrom_write v h (Nat.zero_le a) ha

/-- What a read after a write answers, in a memory listed from `lo` up. -/
theorem Memory.read_write_from : ∀ {lo : Nat} {m : Memory} (a : Nat) (v : Byte) (c : Nat), Memory.wfFrom lo m = true →
    (m.write a v).read c = if a = c then v else m.read c
  | _, [], a, v, c, _ => by
    unfold Memory.write
    split
    · subst_vars; simp
    · rfl
  | lo, (b, w) :: m, a, v, c, h => by
    have h' := (Memory.wfFrom_cons ..).1 h
    unfold Memory.write
    split
    · split
      · split
        · subst_vars; exact Memory.read_below (lo := b) ((Memory.wfFrom_cons ..).2 ⟨le_refl b, h'.2⟩) ‹_›
        · rfl
      · rfl
    · split
      · split
        · subst_vars
          rw [Memory.read_cons]
          split
          · subst_vars; exact Memory.read_below h'.2.2.2 (by omega)
          · rfl
        · subst_vars
          rw [Memory.read_cons, Memory.read_cons]
          split <;> rfl
      · rw [Memory.read_cons, Memory.read_cons, Memory.read_write_from a v c h'.2.2.2]
        split
        · rw [if_neg (by omega)]
        · rfl

/-- Read after write (R52, R53): the written byte at its address, every other byte as before. -/
theorem Memory.read_write {m : Memory} (a : Nat) (v : Byte) (c : Nat) (h : m.wf = true) :
    (m.write a v).read c = if a = c then v else m.read c :=
  Memory.read_write_from a v c h

end Sys2Proof.Machine
end

