-- ==== Sys2Proof/Laws/State.lean ====
section
/-! SUPPORT. One lemma per field for each named update of the state, so that no proof unfolds an update. -/

namespace Sys2Proof.Machine

/-! ### `charge` -/

@[simp] theorem charge_a (n : Nat) (s : State) : (charge n s).a = s.a := rfl
@[simp] theorem charge_x (n : Nat) (s : State) : (charge n s).x = s.x := rfl
@[simp] theorem charge_y (n : Nat) (s : State) : (charge n s).y = s.y := rfl
@[simp] theorem charge_pc (n : Nat) (s : State) : (charge n s).pc = s.pc := rfl
@[simp] theorem charge_sp (n : Nat) (s : State) : (charge n s).sp = s.sp := rfl
@[simp] theorem charge_flags (n : Nat) (s : State) : (charge n s).flags = s.flags := rfl
@[simp] theorem charge_mem (n : Nat) (s : State) : (charge n s).mem = s.mem := rfl
@[simp] theorem charge_cyc (n : Nat) (s : State) : (charge n s).cyc = s.cyc - BitVec.ofNat 32 n := rfl
@[simp] theorem charge_req (n : Nat) (s : State) : (charge n s).req = s.req := rfl
@[simp] theorem charge_used (n : Nat) (s : State) : (charge n s).used = s.used := rfl
@[simp] theorem charge_run (n : Nat) (s : State) : (charge n s).run = s.run := rfl
@[simp] theorem charge_fault (n : Nat) (s : State) : (charge n s).fault = s.fault := rfl
@[simp] theorem charge_faultInfo (n : Nat) (s : State) : (charge n s).faultInfo = s.faultInfo := rfl
@[simp] theorem charge_hostQueue (n : Nat) (s : State) : (charge n s).hostQueue = s.hostQueue := rfl
@[simp] theorem charge_freeIndex (n : Nat) (s : State) : (charge n s).freeIndex = s.freeIndex := rfl

/-! ### `updateLoadFlags` -/

@[simp] theorem updateLoadFlags_a (s : State) : (updateLoadFlags s).a = s.a := rfl
@[simp] theorem updateLoadFlags_x (s : State) : (updateLoadFlags s).x = s.x := rfl
@[simp] theorem updateLoadFlags_y (s : State) : (updateLoadFlags s).y = s.y := rfl
@[simp] theorem updateLoadFlags_pc (s : State) : (updateLoadFlags s).pc = s.pc := rfl
@[simp] theorem updateLoadFlags_sp (s : State) : (updateLoadFlags s).sp = s.sp := rfl
@[simp] theorem updateLoadFlags_flags (s : State) : (updateLoadFlags s).flags = { s.flags with z := zeroDetect s.a, n := signBit s.a } := rfl
@[simp] theorem updateLoadFlags_mem (s : State) : (updateLoadFlags s).mem = s.mem := rfl
@[simp] theorem updateLoadFlags_cyc (s : State) : (updateLoadFlags s).cyc = s.cyc := rfl
@[simp] theorem updateLoadFlags_req (s : State) : (updateLoadFlags s).req = s.req := rfl
@[simp] theorem updateLoadFlags_used (s : State) : (updateLoadFlags s).used = s.used := rfl
@[simp] theorem updateLoadFlags_run (s : State) : (updateLoadFlags s).run = s.run := rfl
@[simp] theorem updateLoadFlags_fault (s : State) : (updateLoadFlags s).fault = s.fault := rfl
@[simp] theorem updateLoadFlags_faultInfo (s : State) : (updateLoadFlags s).faultInfo = s.faultInfo := rfl
@[simp] theorem updateLoadFlags_hostQueue (s : State) : (updateLoadFlags s).hostQueue = s.hostQueue := rfl
@[simp] theorem updateLoadFlags_freeIndex (s : State) : (updateLoadFlags s).freeIndex = s.freeIndex := rfl

/-! ### `powerOn` -/

@[simp] theorem powerOn_a (s : State) : (State.powerOn s).a = s.a := rfl
@[simp] theorem powerOn_x (s : State) : (State.powerOn s).x = s.x := rfl
@[simp] theorem powerOn_y (s : State) : (State.powerOn s).y = s.y := rfl
@[simp] theorem powerOn_pc (s : State) : (State.powerOn s).pc = s.pc := rfl
@[simp] theorem powerOn_sp (s : State) : (State.powerOn s).sp = s.sp := rfl
@[simp] theorem powerOn_flags (s : State) : (State.powerOn s).flags = s.flags := rfl
@[simp] theorem powerOn_mem (s : State) : (State.powerOn s).mem = s.mem := rfl
@[simp] theorem powerOn_cyc (s : State) : (State.powerOn s).cyc = s.cyc := rfl
@[simp] theorem powerOn_req (s : State) : (State.powerOn s).req = s.req := rfl
@[simp] theorem powerOn_used (s : State) : (State.powerOn s).used = s.used := rfl
@[simp] theorem powerOn_fault (s : State) : (State.powerOn s).fault = s.fault := rfl
@[simp] theorem powerOn_faultInfo (s : State) : (State.powerOn s).faultInfo = s.faultInfo := rfl
@[simp] theorem powerOn_hostQueue (s : State) : (State.powerOn s).hostQueue = s.hostQueue := rfl
@[simp] theorem powerOn_freeIndex (s : State) : (State.powerOn s).freeIndex = s.freeIndex := rfl
@[simp] theorem powerOn_run (s : State) : (State.powerOn s).run = .idle := rfl

/-! ### `acceptExecute` -/

@[simp] theorem acceptExecute_a (budget : Cycles) (s : State) : (acceptExecute budget s).a = s.a := rfl
@[simp] theorem acceptExecute_x (budget : Cycles) (s : State) : (acceptExecute budget s).x = s.x := rfl
@[simp] theorem acceptExecute_y (budget : Cycles) (s : State) : (acceptExecute budget s).y = s.y := rfl
@[simp] theorem acceptExecute_pc (budget : Cycles) (s : State) : (acceptExecute budget s).pc = s.pc := rfl
@[simp] theorem acceptExecute_sp (budget : Cycles) (s : State) : (acceptExecute budget s).sp = s.sp := rfl
@[simp] theorem acceptExecute_flags (budget : Cycles) (s : State) : (acceptExecute budget s).flags = s.flags := rfl
@[simp] theorem acceptExecute_mem (budget : Cycles) (s : State) : (acceptExecute budget s).mem = s.mem := rfl
@[simp] theorem acceptExecute_cyc (budget : Cycles) (s : State) : (acceptExecute budget s).cyc = budget := rfl
@[simp] theorem acceptExecute_req (budget : Cycles) (s : State) : (acceptExecute budget s).req = budget := rfl
@[simp] theorem acceptExecute_used (budget : Cycles) (s : State) : (acceptExecute budget s).used = s.used := rfl
@[simp] theorem acceptExecute_run (budget : Cycles) (s : State) : (acceptExecute budget s).run = .running := rfl
@[simp] theorem acceptExecute_fault (budget : Cycles) (s : State) : (acceptExecute budget s).fault = .none := rfl
@[simp] theorem acceptExecute_faultInfo (budget : Cycles) (s : State) : (acceptExecute budget s).faultInfo = .zero := rfl
@[simp] theorem acceptExecute_hostQueue (budget : Cycles) (s : State) : (acceptExecute budget s).hostQueue = s.hostQueue := rfl
@[simp] theorem acceptExecute_freeIndex (budget : Cycles) (s : State) : (acceptExecute budget s).freeIndex = s.freeIndex := rfl

/-! ### `endRun` -/

@[simp] theorem endRun_a (s : State) : (endRun s).a = s.a := by unfold endRun; split <;> rfl
@[simp] theorem endRun_x (s : State) : (endRun s).x = s.x := by unfold endRun; split <;> rfl
@[simp] theorem endRun_y (s : State) : (endRun s).y = s.y := by unfold endRun; split <;> rfl
@[simp] theorem endRun_pc (s : State) : (endRun s).pc = s.pc := by unfold endRun; split <;> rfl
@[simp] theorem endRun_sp (s : State) : (endRun s).sp = s.sp := by unfold endRun; split <;> rfl
@[simp] theorem endRun_flags (s : State) : (endRun s).flags = s.flags := by unfold endRun; split <;> rfl
@[simp] theorem endRun_mem (s : State) : (endRun s).mem = s.mem := by unfold endRun; split <;> rfl
@[simp] theorem endRun_cyc (s : State) : (endRun s).cyc = s.cyc := by unfold endRun; split <;> rfl
@[simp] theorem endRun_req (s : State) : (endRun s).req = s.req := by unfold endRun; split <;> rfl
@[simp] theorem endRun_run (s : State) : (endRun s).run = .idle := by unfold endRun; split <;> rfl
@[simp] theorem endRun_fault (s : State) : (endRun s).fault = s.fault := by unfold endRun; split <;> rfl
@[simp] theorem endRun_faultInfo (s : State) : (endRun s).faultInfo = s.faultInfo := by unfold endRun; split <;> rfl
@[simp] theorem endRun_hostQueue (s : State) : (endRun s).hostQueue = s.hostQueue := by unfold endRun; split <;> rfl

/-! ### `takeFault` -/

@[simp] theorem takeFault_a (r : Raise) (s : State) : (takeFault r s).a = s.a := by simp [takeFault]
@[simp] theorem takeFault_x (r : Raise) (s : State) : (takeFault r s).x = s.x := by simp [takeFault]
@[simp] theorem takeFault_y (r : Raise) (s : State) : (takeFault r s).y = s.y := by simp [takeFault]
@[simp] theorem takeFault_pc (r : Raise) (s : State) : (takeFault r s).pc = s.pc := by simp [takeFault]
@[simp] theorem takeFault_sp (r : Raise) (s : State) : (takeFault r s).sp = s.sp := by simp [takeFault]
@[simp] theorem takeFault_flags (r : Raise) (s : State) : (takeFault r s).flags = s.flags := by simp [takeFault]
@[simp] theorem takeFault_mem (r : Raise) (s : State) : (takeFault r s).mem = s.mem := by simp [takeFault]
@[simp] theorem takeFault_cyc (r : Raise) (s : State) : (takeFault r s).cyc = s.cyc := by simp [takeFault]
@[simp] theorem takeFault_req (r : Raise) (s : State) : (takeFault r s).req = s.req := by simp [takeFault]
@[simp] theorem takeFault_run (r : Raise) (s : State) : (takeFault r s).run = .idle := by simp [takeFault]
@[simp] theorem takeFault_fault (r : Raise) (s : State) : (takeFault r s).fault = r.code := by simp [takeFault]
@[simp] theorem takeFault_faultInfo (r : Raise) (s : State) : (takeFault r s).faultInfo = r.info := by simp [takeFault]
@[simp] theorem takeFault_hostQueue (r : Raise) (s : State) : (takeFault r s).hostQueue = s.hostQueue := by simp [takeFault]

/-- The state FetchByte leaves (40_access_primitives.md R100). -/
@[simp] theorem fetchByte_snd (s : State) : (fetchByte s).2 = charge 1 { s with pc := s.pc + 1#16 } := rfl

/-- The byte FetchByte answers (R100). -/
@[simp] theorem fetchByte_fst (s : State) : (fetchByte s).1 = s.mem.read s.pc.toNat := rfl

end Sys2Proof.Machine
end

