-- ==== Sys2Proof/Laws/Ops.lean ====
section
/-! SUPPORT. What each shared operation does, said once: reads, the word store, the resolver's indexed read, the common
end of a load, and one instruction step. -/

namespace Sys2Proof.Machine

/-! ### Sequencing -/

@[simp] theorem Access.ok_andThen {α β : Type} (v : α) (s : State) (f : α → State → Access β) :
    (Access.ok v s).andThen f = f v s := rfl

@[simp] theorem Access.raised_andThen {α β : Type} (r : Raise) (s : State) (f : α → State → Access β) :
    (Access.raised r s : Access α).andThen f = .raised r s := rfl

/-! ### Reads and writes (spec/40_access_primitives.md) -/

theorem charge_charge (m n : Nat) (s : State) : charge m (charge n s) = charge (n + m) s := by
  simp only [charge]
  congr 1
  rw [BitVec.sub_sub, BitVec.ofNat_add]

/-- ReadByte at an address that exists (R102). -/
theorem readByte_ok {a : Nat} (s : State) (h : a < Config.memSize) : readByte a s = .ok (s.mem.read a) (charge 1 s) := by
  simp [readByte, memRead, h]

/-- ReadByte at an address that does not exist: no charge (R102). -/
theorem readByte_raised {a : Nat} (s : State) (h : ¬ a < Config.memSize) :
    readByte a s = .raised (.addressOutOfRange (BitVec.ofNat 17 a)) s := by
  simp [readByte, memRead, h]

/-- ReadWord where both bytes exist (R103). -/
theorem readWord_ok {a : Nat} (s : State) (h : a + 1 < Config.memSize) :
    readWord a s = .ok (wordOf (s.mem.read (a + 1)) (s.mem.read a)) (charge 2 s) := by
  simp [readWord, readByte_ok _ h, readByte_ok s (show a < Config.memSize by omega), charge_charge]

/-- A zero-page pointer can always be read (R103). -/
theorem byte_succ_lt (p : Byte) : p.toNat + 1 < Config.memSize := by
  have := p.isLt
  simp only [Config.memSize]
  omega

theorem addr_lt (v : Addr) : v.toNat < Config.memSize := v.isLt

theorem byte_lt (p : Byte) : p.toNat < Config.memSize := Nat.lt_of_succ_lt (byte_succ_lt p)

/-- WriteWord below 0xFFFF (R104). -/
theorem writeWord_ok {a : Addr} (v : Addr) (s : State) (h : a ≠ 0xFFFF#16) :
    writeWord v a s =
      .ok () (charge 2 { s with mem := (s.mem.write a.toNat (lo8 v)).write (a.toNat + 1) (hi8 v) }) := by
  have h1 : a.toNat + 1 < Config.memSize := by
    have := a.isLt
    have : a.toNat ≠ 65535 := fun e => h (BitVec.eq_of_toNat_eq e)
    simp only [Config.memSize]
    omega
  simp [writeWord, memWrite, addr_lt, h1]

/-- WriteWord at 0xFFFF: the low byte is stored, the high byte's store raises, nothing is charged (R104). -/
theorem writeWord_top (v : Addr) (s : State) :
    writeWord v 0xFFFF#16 s =
      .raised (.addressOutOfRange 0x10000#17) { s with mem := s.mem.write 0xFFFF (lo8 v) } := by
  simp [writeWord, memWrite, Config.memSize]

/-! ### The resolver's indexed read (R106 to R108) -/

/-- The page-cross test is the carry of the low-byte addition (R106). -/
theorem pageCross_iff (base : Addr) (idx : Byte) :
    pageCross base (indexedAddress base idx) = true ↔ 256 ≤ base.toNat % 256 + idx.toNat := by
  have := idx.isLt
  simp only [pageCross, pageCrossBy, Config.pageCrossPolicy, page, indexedAddress, bne_iff_ne, ne_eq]
  omega

/-- The page-cross cycle of base plus index. -/
def crossCharge (base : Addr) (idx : Byte) : Nat := if 256 ≤ base.toNat % 256 + idx.toNat then 1 else 0

theorem charge_zero (s : State) : charge 0 s = s := by simp [charge]

theorem crossed_state (base : Addr) (idx : Byte) (s : State) :
    (if pageCross base (indexedAddress base idx) = true then charge 1 s else s) = charge (crossCharge base idx) s := by
  by_cases h : pageCross base (indexedAddress base idx) = true
  · rw [if_pos h, crossCharge, if_pos ((pageCross_iff base idx).1 h)]
  · rw [if_neg h, crossCharge, if_neg (fun c => h ((pageCross_iff base idx).2 c)), charge_zero]

/-- Base plus index within memory (R125, R126, R128). -/
theorem operandIndexed_ok {base : Addr} {idx : Byte} (s : State) (h : base.toNat + idx.toNat < Config.memSize) :
    operandIndexed base idx s =
      .ok (s.mem.read (base.toNat + idx.toNat)) (charge (crossCharge base idx + 1) s) := by
  rw [operandIndexed, crossed_state]
  rw [readByte_ok _ (show indexedAddress base idx < Config.memSize from h), charge_charge, charge_mem, indexedAddress]

/-- Base plus index above memory: the page-cross cycle is charged, then the read raises (R125, R126, R128). -/
theorem operandIndexed_raised {base : Addr} {idx : Byte} (s : State) (h : ¬ base.toNat + idx.toNat < Config.memSize) :
    operandIndexed base idx s =
      .raised (.addressOutOfRange (BitVec.ofNat 17 (base.toNat + idx.toNat))) (charge 1 s) := by
  have hc : crossCharge base idx = 1 := by
    have := base.isLt
    have := idx.isLt
    simp only [Config.memSize, not_lt] at h
    exact if_pos (by omega)
  rw [operandIndexed, crossed_state, hc, readByte_raised _ (show ¬ indexedAddress base idx < Config.memSize from h),
    indexedAddress]

/-! ### The common end of a load -/

@[simp] theorem completeLoad_ok (v : Byte) (s : State) :
    completeLoad (.ok v s) = .next (updateLoadFlags { s with a := v }) := rfl

@[simp] theorem completeLoad_raised (k : Raise) (s : State) : completeLoad (.raised k s) = .next (takeFault k s) := rfl

/-! ### The end of a run -/

/-- `REQ - CYC` in 32 signed bits is exact where it fits (spec/43_execute_loop.md R157). -/
theorem usedFits_iff (s : State) :
    usedFits s = true ↔ -0x80000000 ≤ s.req.toInt - s.cyc.toInt ∧ s.req.toInt - s.cyc.toInt ≤ 0x7FFFFFFF := by
  simp [usedFits]

theorem toInt_req_sub_cyc {s : State} (h : usedFits s = true) : (s.req - s.cyc).toInt = s.req.toInt - s.cyc.toInt := by
  rw [usedFits_iff] at h
  rw [BitVec.toInt_sub, Int.bmod_def]
  simp
  omega

theorem endRun_fits {s : State} (h : usedFits s = true) : endRun s = { s with used := s.req - s.cyc, run := .idle } := by
  simp [endRun, h]

/-- Whether or not it fits, only USED, RUN and the model's free index change (R155, R174). -/
theorem endRun_eq (s : State) :
    endRun s = { s with run := .idle, used := (endRun s).used, freeIndex := (endRun s).freeIndex } := by
  unfold endRun
  split <;> rfl

/-- Fault entry changes the report and RUN, nothing else (spec/60_exceptions.md R174). -/
theorem takeFault_eq (r : Raise) (s : State) :
    takeFault r s = { s with
      fault := r.code, faultInfo := r.info, run := .idle, used := (takeFault r s).used,
      freeIndex := (takeFault r s).freeIndex } :=
  endRun_eq _

/-! ### JSR -/

/-- JSR with room for the word (spec/42_control_transfer.md R140). -/
theorem execJsr_ok {s : State} (target : Addr) (h : s.sp ≠ 0xFFFF#16) :
    execJsr target s = .next (charge 1 (charge 2
      { s with
        mem := (s.mem.write s.sp.toNat (lo8 (returnValue s))).write (s.sp.toNat + 1) (hi8 (returnValue s)),
        sp := s.sp + 2#16, pc := target })) := by
  rw [execJsr, writeWord_ok _ _ h]
  rfl

/-- JSR at SP = 0xFFFF (R140, R173). -/
theorem execJsr_top {s : State} (target : Addr) (h : s.sp = 0xFFFF#16) :
    execJsr target s = .next (takeFault (.addressOutOfRange 0x10000#17)
      { s with mem := s.mem.write 0xFFFF (lo8 (returnValue s)) }) := by
  have e := writeWord_top (returnValue s) s
  rw [← h] at e
  rw [execJsr, e]

end Sys2Proof.Machine
end

