-- ==== Sys2Proof/Laws/Exec.lean ====
section
/-! SUPPORT. What a meaning, an instruction step and a step can do, said once, so that no later proof unfolds them. -/

namespace Sys2Proof.Machine

/-! ### Loads: the byte loaded and the cycles charged beside the fetches -/

/-- The exact address a load reads its operand from; none for Immediate (spec/40_access_primitives.md R108). -/
def loadAddress (i : Instr) (s : State) : Option Nat :=
  match i with
  | .ldaImm _ => none
  | .ldaZp zp => some zp.toNat
  | .ldaZpX zp => some ((zp.toNat + s.x.toNat) % 256)
  | .ldaAbs addr => some addr.toNat
  | .ldaAbsX addr => some (addr.toNat + s.x.toNat)
  | .ldaAbsY addr => some (addr.toNat + s.y.toNat)
  | .ldaIndX zp => some (s.pointerAt ((zp.toNat + s.x.toNat) % 256))
  | .ldaIndY zp => some (s.pointerAt zp.toNat + s.y.toNat)
  | .jsr _ => none

/-- The operand byte of a load that completes. -/
def loadValue (i : Instr) (s : State) : Byte :=
  match i with
  | .ldaImm imm => imm
  | _ => s.mem.read ((loadAddress i s).getD 0)

/-- The cycles a meaning charges: the table's total without the fetches. -/
def meaningCharge (i : Instr) (s : State) : Nat := cycleTotal i s - i.length

theorem loaded_charge (v : Byte) (n : Nat) (s : State) :
    updateLoadFlags { charge n s with a := v } = loaded v (charge n s) := by
  have hz : zeroDetect v = decide (v = 0#8) := by
    by_cases h : v = 0#8 <;> simp [zeroDetect, h]
  have hn : signBit v = decide (0x80 ≤ v.toNat) := by
    revert v; decide
  simp [updateLoadFlags, loaded, hz, hn]

/-- The pointer of an indirect mode, as ReadWord reads it (R103). -/
theorem wordOf_pointer (s : State) (p : Nat) : (wordOf (s.mem.read (p + 1)) (s.mem.read p)).toNat = s.pointerAt p := by
  rw [toNat_wordOf, State.pointerAt]

theorem zeroPageIndex_toNat (zp idx : Byte) : (zeroPageIndex zp idx).toNat = (zp.toNat + idx.toNat) % 256 := by
  simp [zeroPageIndex, BitVec.toNat_add]

theorem pointerAt_lt (s : State) (p : Nat) : s.pointerAt p < Config.memSize := by
  have := (s.mem.read p).isLt
  have := (s.mem.read (p + 1)).isLt
  simp only [State.pointerAt, Config.memSize]
  omega

theorem not_lt_memSize {n : Nat} : ¬ n < Config.memSize ↔ 0xFFFF < n := by
  simp only [Config.memSize]
  omega

/-- (Indirect),Y after its pointer was read (spec/41_load_accumulator.md R128). -/
theorem operandIndY_eq (zp : Byte) (s : State) :
    operandIndY zp s =
      operandIndexed (wordOf (s.mem.read (zp.toNat + 1)) (s.mem.read zp.toNat)) s.y (charge 2 s) := by
  rw [operandIndY, readWord_ok s (byte_succ_lt zp)]
  rfl

/-- A load that raises nothing: A, Z, N and CYC (R120). -/
theorem exec_load_ok {i : Instr} {s : State} (hi : i.form ≠ .jsr) (h : offendingAddress i s = none) :
    exec i s = .next (loaded (loadValue i s) (charge (meaningCharge i s) s)) := by
  cases i with
  | ldaImm imm =>
    have := loaded_charge imm 0 s
    rw [charge_zero] at this
    simp [exec, execLdaImm, operandImm, this, meaningCharge, cycleTotal, Instr.length, Instr.form, Form.format,
      Format.length, loadValue, charge_zero]
  | ldaZp zp =>
    rw [exec, execLdaZp, operandZp, readByte_ok s (byte_lt zp), completeLoad_ok, loaded_charge]
    rfl
  | ldaZpX zp =>
    rw [exec, execLdaZpX, operandZpX, readByte_ok _ (byte_lt _), completeLoad_ok, charge_charge, loaded_charge,
      zeroPageIndex_toNat]
    rfl
  | ldaAbs addr =>
    rw [exec, execLdaAbs, operandAbs, readByte_ok s (addr_lt addr), completeLoad_ok, loaded_charge]
    rfl
  | ldaAbsX addr =>
    have hlt : addr.toNat + s.x.toNat < Config.memSize := by
      by_contra hc
      simp [offendingAddress, not_lt_memSize.1 hc] at h
    rw [exec, execLdaAbsX, operandAbsX, operandIndexed_ok s hlt, completeLoad_ok, loaded_charge]
    simp [meaningCharge, cycleTotal, h, Instr.length, Instr.form, Form.format, Format.length, loadValue, loadAddress,
      crossCharge, crossCycle]
    congr 2
    split <;> rfl
  | ldaAbsY addr =>
    have hlt : addr.toNat + s.y.toNat < Config.memSize := by
      by_contra hc
      simp [offendingAddress, not_lt_memSize.1 hc] at h
    rw [exec, execLdaAbsY, operandAbsY, operandIndexed_ok s hlt, completeLoad_ok, loaded_charge]
    simp [meaningCharge, cycleTotal, h, Instr.length, Instr.form, Form.format, Format.length, loadValue, loadAddress,
      crossCharge, crossCycle]
    congr 2
    split <;> rfl
  | ldaIndX zp =>
    rw [exec, execLdaIndX, operandIndX, readWord_ok _ (byte_succ_lt _), Access.ok_andThen, readByte_ok _ (addr_lt _),
      completeLoad_ok, charge_charge, charge_charge, loaded_charge, charge_mem, charge_mem, wordOf_pointer,
      zeroPageIndex_toNat]
    rfl
  | ldaIndY zp =>
    have hlt : (wordOf (s.mem.read (zp.toNat + 1)) (s.mem.read zp.toNat)).toNat + s.y.toNat < Config.memSize := by
      rw [wordOf_pointer]
      by_contra hc
      simp [offendingAddress, not_lt_memSize.1 hc] at h
    rw [exec, execLdaIndY, operandIndY_eq, operandIndexed_ok _ hlt, completeLoad_ok, charge_charge, charge_mem,
      loaded_charge, wordOf_pointer]
    simp [meaningCharge, cycleTotal, h, Instr.length, Instr.form, Form.format, Format.length, loadValue, loadAddress,
      crossCharge, crossCycle, Nat.mod_eq_of_lt (s.mem.read zp.toNat).isLt]
    congr 2
    split <;> rfl
  | jsr target => exact absurd rfl hi

/-- A load that raises: the fault is taken with A, Z and N as before (R120, spec/60_exceptions.md R173). -/
theorem exec_load_raised {i : Instr} {s : State} {a : Nat} (hi : i.form ≠ .jsr) (h : offendingAddress i s = some a) :
    exec i s = .next (takeFault (.addressOutOfRange (BitVec.ofNat 17 a)) (charge (meaningCharge i s) s)) := by
  cases i with
  | ldaImm imm => simp [offendingAddress] at h
  | ldaZp zp => simp [offendingAddress] at h
  | ldaZpX zp => simp [offendingAddress] at h
  | ldaAbs addr => simp [offendingAddress] at h
  | ldaIndX zp => simp [offendingAddress] at h
  | jsr target => exact absurd rfl hi
  | ldaAbsX addr =>
    have h' := h
    simp only [offendingAddress, Option.ite_none_right_eq_some, Option.some.injEq] at h'
    obtain ⟨hgt, rfl⟩ := h'
    rw [exec, execLdaAbsX, operandAbsX, operandIndexed_raised s (not_lt_memSize.2 hgt), completeLoad_raised]
    simp [meaningCharge, cycleTotal, h, Instr.length, Instr.form, Form.format, Format.length]
  | ldaAbsY addr =>
    have h' := h
    simp only [offendingAddress, Option.ite_none_right_eq_some, Option.some.injEq] at h'
    obtain ⟨hgt, rfl⟩ := h'
    rw [exec, execLdaAbsY, operandAbsY, operandIndexed_raised s (not_lt_memSize.2 hgt), completeLoad_raised]
    simp [meaningCharge, cycleTotal, h, Instr.length, Instr.form, Form.format, Format.length]
  | ldaIndY zp =>
    have h' := h
    simp only [offendingAddress, Option.ite_none_right_eq_some, Option.some.injEq] at h'
    obtain ⟨hgt, rfl⟩ := h'
    have hge : ¬ (wordOf (s.mem.read (zp.toNat + 1)) (s.mem.read zp.toNat)).toNat + s.y.toNat < Config.memSize := by
      rw [wordOf_pointer]; exact not_lt_memSize.2 hgt
    rw [exec, execLdaIndY, operandIndY_eq, operandIndexed_raised _ hge, completeLoad_raised, charge_charge,
      wordOf_pointer]
    simp [meaningCharge, cycleTotal, h, Instr.length, Instr.form, Form.format, Format.length]

/-! ### Every meaning -/

/-- JSR, by whether there is room for its word (spec/42_control_transfer.md R140). -/
theorem exec_jsr_cases (target : Addr) (s : State) :
    (s.sp ≠ 0xFFFF#16 ∧ exec (.jsr target) s = .next { s with
        mem := (s.mem.write s.sp.toNat (lo8 (returnValue s))).write (s.sp.toNat + 1) (hi8 (returnValue s)),
        sp := s.sp + 2#16, pc := target, cyc := s.cyc - 3#32 }) ∨
    (s.sp = 0xFFFF#16 ∧ exec (.jsr target) s = .next (takeFault (.addressOutOfRange 0x10000#17)
        { s with mem := s.mem.write 0xFFFF (lo8 (returnValue s)) })) := by
  by_cases h : s.sp = 0xFFFF#16
  · exact .inr ⟨h, execJsr_top target h⟩
  · refine .inl ⟨h, ?_⟩
    show execJsr target s = _
    rw [execJsr_ok target h]
    simp [charge]
    bv_omega

/-- An offending address lies just above memory (spec/10_state.md R38). -/
theorem offendingAddress_range {i : Instr} {s : State} {a : Nat} (h : offendingAddress i s = some a) :
    0x10000 ≤ a ∧ a ≤ 0x100FE := by
  have hx := s.x.isLt
  have hy := s.y.isLt
  cases i <;> simp only [offendingAddress, Option.ite_none_right_eq_some, Option.some.injEq, reduceCtorEq] at h
  case ldaAbsX addr => have := addr.isLt; omega
  case ldaAbsY addr => have := addr.isLt; omega
  case ldaIndY zp => have := pointerAt_lt s zp.toNat; simp only [Config.memSize] at this; omega
  case jsr target => omega

/-- All a meaning can do: a load that completes or raises, or a JSR that completes or raises. -/
theorem exec_cases (i : Instr) (s : State) :
    (i.form ≠ .jsr ∧ offendingAddress i s = none ∧
      exec i s = .next (loaded (loadValue i s) (charge (meaningCharge i s) s))) ∨
    (∃ a, i.form ≠ .jsr ∧ offendingAddress i s = some a ∧
      exec i s = .next (takeFault (.addressOutOfRange (BitVec.ofNat 17 a)) (charge (meaningCharge i s) s))) ∨
    (∃ target, i = .jsr target ∧ offendingAddress i s = none ∧ s.sp ≠ 0xFFFF#16 ∧
      exec i s = .next { s with
        mem := (s.mem.write s.sp.toNat (lo8 (returnValue s))).write (s.sp.toNat + 1) (hi8 (returnValue s)),
        sp := s.sp + 2#16, pc := target, cyc := s.cyc - 3#32 }) ∨
    (∃ target, i = .jsr target ∧ offendingAddress i s = some 0x10000 ∧ s.sp = 0xFFFF#16 ∧
      exec i s = .next (takeFault (.addressOutOfRange 0x10000#17)
        { s with mem := s.mem.write 0xFFFF (lo8 (returnValue s)) })) := by
  by_cases hi : i.form = .jsr
  · obtain ⟨target, rfl⟩ : ∃ target, i = .jsr target := by cases i <;> simp [Instr.form] at hi ⊢
    rcases exec_jsr_cases target s with ⟨h, e⟩ | ⟨h, e⟩
    · exact .inr (.inr (.inl ⟨target, rfl, by simp [offendingAddress, h], h, e⟩))
    · exact .inr (.inr (.inr ⟨target, rfl, by simp [offendingAddress, h], h, e⟩))
  · cases h : offendingAddress i s with
    | none => exact .inl ⟨hi, rfl, exec_load_ok hi h⟩
    | some a => exact .inr (.inl ⟨a, hi, rfl, exec_load_raised hi h⟩)

/-! ### One instruction step -/

theorem fetchByte_eq (s : State) : fetchByte s = (s.mem.read s.pc.toNat, s.fetched 1) := rfl

theorem fetched_fetched (s : State) (m n : Nat) : (s.fetched m).fetched n = s.fetched (m + n) := by
  simp only [State.fetched]
  congr 1
  · rw [BitVec.add_assoc, BitVec.ofNat_add]
  · rw [BitVec.sub_sub, BitVec.ofNat_add]

/-- FetchWord as one fetch of two bytes (R101). -/
theorem fetchWord_eq (s : State) :
    fetchWord s = (wordOf (s.mem.read (s.pc + 1#16).toNat) (s.mem.read s.pc.toNat), s.fetched 2) := by
  simp only [fetchWord, fetchByte_eq, fetched_fetched]
  rfl

/-- An instruction step: UnhandledOpcode on an unassigned byte, else the meaning of the instruction that the bytes at PC
decode to, with those bytes fetched (spec/43_execute_loop.md R152). -/
theorem instrStep_cases (o : Opcodes) (s : State) :
    (s.mem.read s.pc.toNat ∉ o.toList ∧
      instrStep o s = .next (takeFault (.unhandledOpcode (s.mem.read s.pc.toNat) s.pc) (s.fetched 1))) ∨
    (∃ i rest, o.lookup (s.mem.read s.pc.toNat) = some i.form ∧ decodeWith o s.bytesAtPC = .ok (i, rest) ∧
      instrStep o s = exec i (s.fetched i.length)) := by
  rw [instrStep, fetchByte_eq]
  cases hl : o.lookup (s.mem.read s.pc.toNat) with
  | none => exact .inl ⟨Opcodes.lookup_eq_none.1 hl, rfl⟩
  | some f =>
    refine .inr ⟨(fetchOperand f (s.fetched 1)).1, ?_⟩
    cases f
    all_goals
      simp only [fetchOperand, Form.operand, fetchByte_eq, fetchWord_eq, fetched_fetched, State.bytesAtPC, decodeWith, hl]
      first
        | exact ⟨_, rfl, rfl, rfl⟩
        | exact ⟨[], rfl, by simp [State.fetched, BitVec.add_assoc], rfl⟩

/-- Where the bytes at PC decode, an instruction step is the meaning of what they decode to. -/
theorem instrStep_decoded {o : Opcodes} {s : State} {i : Instr} {rest : List Byte}
    (h : decodeWith o s.bytesAtPC = .ok (i, rest)) : instrStep o s = exec i (s.fetched i.length) := by
  rcases instrStep_cases o s with ⟨hn, _⟩ | ⟨j, r, _, hd, e⟩
  · simp [decodeWith, State.bytesAtPC, Opcodes.lookup_eq_none.2 hn] at h
  · rw [hd] at h
    cases h
    exact e

/-- A step of a Running machine with budget left. -/
theorem runStepWith_pos {o : Opcodes} {s : State} (h : 0 < s.cyc.toInt) : runStepWith o s = instrStep o s := by
  simp [runStepWith, budgetLeft, h]

/-- A step of a Running machine with none left. -/
theorem runStepWith_done {o : Opcodes} {s : State} (h : s.cyc.toInt ≤ 0) : runStepWith o s = .next (endRun s) := by
  simp [runStepWith, budgetLeft, h]

theorem step_running {s : State} (h : s.run = .running) : step s = runStepWith Opcodes.standard s := by
  simp [step, h, runStep]

theorem step_idle_nil {s : State} (h : s.run = .idle) (hq : s.hostQueue = []) : step s = .next s := by
  simp [step, h, idleStep, hq]

theorem step_idle_cons {s : State} {act : HostAction} {rest : List HostAction} (h : s.run = .idle)
    (hq : s.hostQueue = act :: rest) : step s = .next (applyHost act { s with hostQueue := rest }) := by
  simp [step, h, idleStep, hq, hostAct]

/-! ### What taking a fault reports, and what Reset leaves -/

/-- Fault entry leaves `REQ - CYC` in USED where it fits (spec/60_exceptions.md R174); what the instruction did before
the raise takes no free value. -/
theorem takeFault_usedIsReported {before s : State} (r : Raise) (hf : s.freeIndex = before.freeIndex) :
    UsedIsReported before (takeFault r s) := by
  intro h1 h2
  simp only [takeFault_req, takeFault_cyc] at h1 h2 ⊢
  have h : usedFits { s with fault := r.code, faultInfo := r.info } = true := (usedFits_iff _).2 ⟨h1, h2⟩
  rw [takeFault, endRun_fits h]
  exact ⟨toInt_req_sub_cyc h, hf⟩

/-- Reset leaves the spec's reset state, whatever was held before (spec/70_reset_and_hazards.md R200, R204). -/
@[simp] theorem resetCore_architectural (s : State) : (resetCore s).architectural = State.reset := rfl

/-- Reset leaves a state of the invariant, whatever was held before. -/
theorem resetCore_inv (s : State) : (resetCore s).Inv := ⟨rfl, rfl, rfl, by simp [State.reportOfRun, resetCore, State.reset]⟩

end Sys2Proof.Machine
end

