-- ==== Sys2Proof/Laws/PerInstr.lean ====
section
/-! SUPPORT. Facts about every instruction as syntax, one lemma per constructor. -/

/-- However the opcodes are assigned, the encoding has the length the instruction is said to have, 2 or 3 bytes
(spec/30_encoding.md R80, R83). -/
def Sys2Proof.Laws.EncodedLength.Statement (i : Sys2Proof.Instr) : Prop :=
  ∀ o : Sys2Proof.Opcodes, (Sys2Proof.encodeWith o i).length = i.length ∧ (i.length = 2 ∨ i.length = 3)

namespace Sys2Proof.Laws.EncodedLength

theorem ldaImm (imm : Byte) : Statement (.ldaImm imm) := fun _ => ⟨rfl, .inl rfl⟩
theorem ldaZp (zp : Byte) : Statement (.ldaZp zp) := fun _ => ⟨rfl, .inl rfl⟩
theorem ldaZpX (zp : Byte) : Statement (.ldaZpX zp) := fun _ => ⟨rfl, .inl rfl⟩
theorem ldaAbs (addr : Addr) : Statement (.ldaAbs addr) := fun _ => ⟨rfl, .inr rfl⟩
theorem ldaAbsX (addr : Addr) : Statement (.ldaAbsX addr) := fun _ => ⟨rfl, .inr rfl⟩
theorem ldaAbsY (addr : Addr) : Statement (.ldaAbsY addr) := fun _ => ⟨rfl, .inr rfl⟩
theorem ldaIndX (zp : Byte) : Statement (.ldaIndX zp) := fun _ => ⟨rfl, .inl rfl⟩
theorem ldaIndY (zp : Byte) : Statement (.ldaIndY zp) := fun _ => ⟨rfl, .inl rfl⟩
theorem jsr (target : Addr) : Statement (.jsr target) := fun _ => ⟨rfl, .inr rfl⟩

end Sys2Proof.Laws.EncodedLength
end

