-- ==== Sys2Proof/Laws/Run.lean ====
section
/-! SUPPORT. Runs of several steps: one step unrolled, the induction over a run packaged once, and that `runFor` is the
host's `Core.run`. -/

namespace Sys2Proof.Machine

@[simp] theorem runFor_zero (s : State) : runFor 0 s = .next s := rfl

theorem runFor_succ {s t : State} (h : step s = .next t) (k : Nat) : runFor (k + 1) s = runFor k t := by
  simp [runFor, h]

/-- A run of `k + 1` steps that answers a next state begins with a step that does. -/
theorem runFor_succ_next {s t : State} {k : Nat} (h : runFor (k + 1) s = .next t) :
    ∃ u, step s = .next u ∧ runFor k u = .next t := by
  rw [runFor] at h
  split at h
  · exact ⟨_, ‹_›, h⟩
  · cases h
  · cases h

/-- What holds at the start and is kept by every step holds after any number of steps. -/
theorem runFor_keeps {P : State → Prop} (hstep : ∀ s t, P s → step s = .next t → P t) :
    ∀ (k : Nat) {s t : State}, P s → runFor k s = .next t → P t
  | 0, s, t, hs, h => by
    cases h
    exact hs
  | k + 1, s, t, hs, h => by
    obtain ⟨u, hu, ht⟩ := runFor_succ_next h
    exact runFor_keeps hstep k (hstep s u hs hu) ht

/-! ### The host's run -/

theorem coreRun_next {M : Host.Core} {s t : M.State} (h : M.step s = .next t) (k : Nat) :
    M.run (k + 1) s = M.run k t := by
  simp [Host.Core.run, h]

theorem coreRun_fault {M : Host.Core} {s : M.State} {r : M.Fault} (h : M.step s = .fault r) (k : Nat) :
    M.run (k + 1) s = .fault r := by
  simp [Host.Core.run, h]

theorem coreRun_refused {M : Host.Core} {s : M.State} {r : M.Refusal} (h : M.step s = .refused r) (k : Nat) :
    M.run (k + 1) s = .refused r := by
  simp [Host.Core.run, h]

/-- The host's run of the machine is `runFor`. -/
theorem coreRun_eq_runFor : ∀ (k : Nat) (s : State), Sys2Proof.core.run k s = runFor k s
  | 0, _ => rfl
  | k + 1, s => by
    cases h : step s with
    | next t =>
      rw [runFor_succ h]
      exact (coreRun_next (M := Sys2Proof.core) h k).trans (coreRun_eq_runFor k t)
    | fault r => cases r
    | refused r =>
      rw [runFor, h]
      exact coreRun_refused (M := Sys2Proof.core) h k

/-! ### The canonical form of memory, where more than one byte is written -/

/-- Memory right after Reset is in canonical form. -/
theorem reset_mem_wf : State.reset.mem.wf = true := rfl

/-- A raw write, completed or raised, keeps the canonical form (spec/20_memory.md R53). -/
theorem memWrite_wf {a : Nat} {v : Byte} {s t : State} (h : s.mem.wf = true)
    (e : memWrite a v s = .ok () t ∨ ∃ r, memWrite a v s = .raised r t) : t.mem.wf = true := by
  unfold memWrite at e
  split at e
  · rcases e with e | ⟨r, e⟩ <;> cases e
    exact Memory.wf_write v h ‹_›
  · rcases e with e | ⟨r, e⟩ <;> cases e
    exact h

/-- The word store, completed or raised, keeps the canonical form (spec/40_access_primitives.md R104). -/
theorem writeWord_wf {v a : Addr} {s t : State} (h : s.mem.wf = true)
    (e : writeWord v a s = .ok () t ∨ ∃ r, writeWord v a s = .raised r t) : t.mem.wf = true := by
  have h1 := Memory.wf_write (lo8 v) h (addr_lt a)
  by_cases hb : a.toNat + 1 < Config.memSize
  · simp only [writeWord, memWrite, addr_lt, if_true, Access.andThen, if_pos hb] at e
    rcases e with e | ⟨r, e⟩ <;> cases e
    exact Memory.wf_write (hi8 v) h1 hb
  · simp only [writeWord, memWrite, addr_lt, if_true, Access.andThen, if_neg hb] at e
    rcases e with e | ⟨r, e⟩ <;> cases e
    exact h1

/-- Placing bytes at PC keeps the canonical form. -/
theorem storeAt_wf : ∀ (bytes : List Byte) (pc : Addr) {m : Memory}, m.wf = true → (storeAt pc bytes m).wf = true
  | [], _, _, h => h
  | b :: rest, pc, _, h => storeAt_wf rest (pc + 1#16) (Memory.wf_write b h (addr_lt pc))

end Sys2Proof.Machine
end

