-- ==== Sys2Proof/Tests/Slice0.lean ====
section
/-! SUPPORT. The model's own tests. Expected results are the vectors of spec/95_test_vectors.md, named in the comments, or
words written out from the formats of 30_encoding.md; then one witness for the hypotheses of each statement. -/

open Sys2Proof Sys2Proof.Machine

/-! ### Small states -/

/-- The next state, if there is one. -/
def Tests.after (r : Host.Outcome State Fault Refusal) : Option State :=
  match r with
  | .next s => some s
  | .fault _ => none
  | .refused _ => none

/-- A state with some bytes placed. -/
def Tests.put (cells : List Host.Cell) (s : State) : State :=
  { s with mem := cells.foldl (fun m c => m.write c.1 c.2) s.mem }

/-- A Running machine with the budget 10 at a PC, and bytes. -/
def Tests.running (pc : Addr) (cells : List Host.Cell) : State :=
  Tests.put cells { State.reset with pc := pc, run := .running, cyc := 10#32, req := 10#32 }

/-- What a load shows after one step: A, Z, N, PC, CYC (from 10) and FAULT. -/
def Tests.load (s : State) : Option (Byte × Bool × Bool × Addr × Cycles × FaultCode) :=
  (Tests.after (step s)).map fun t => (t.a, t.flags.z, t.flags.n, t.pc, t.cyc, t.fault)

/-- What JSR shows after one step: two bytes of memory, SP, PC, CYC and FAULT. -/
def Tests.call (s : State) (a b : Nat) : Option (Byte × Byte × Addr × Addr × Cycles × FaultCode) :=
  (Tests.after (step s)).map fun t => (t.mem.read a, t.mem.read b, t.sp, t.pc, t.cyc, t.fault)

/-! ### Well-formedness: an ill-formed term for each check -/

theorem test_wellFormed_refuses_equal_opcodes : ({ Opcodes.standard with jsr := 0xA5#8 }).wellFormed = false := by decide
theorem test_wellFormed_refuses_other_immediate : ({ Opcodes.standard with ldaImm := 0xA8#8 }).wellFormed = false := by decide
theorem test_wellFormed_refuses_FF : ({ Opcodes.standard with jsr := 0xFF#8 }).wellFormed = false := by decide
theorem test_wellFormed_instr : (Instr.jsr 0xFFFF#16).wellFormed = true := by decide
theorem test_memory_refuses_unsorted : Memory.wf [(5, 1#8), (4, 1#8)] = false := by decide
theorem test_memory_refuses_zero_cell : Memory.wf [(5, 0#8)] = false := by decide
theorem test_memory_refuses_high_address : Memory.wf [(0x10000, 1#8)] = false := by decide
theorem test_memory_write_zero_removes : Memory.write [(5, 1#8)] 5 0#8 = [] := by decide

/-! ### Decoding: words written out from R81 and R84, bit 0 the lowest bit of the opcode byte -/

theorem test_decode_ldaImm : decodeTableWord 16 0b10000100_10101001 = some (.ldaImm 0x84#8) := by decide
theorem test_decode_ldaZp : decodeTableWord 16 0b01000010_10100101 = some (.ldaZp 0x42#8) := by decide
theorem test_decode_ldaZpX : decodeTableWord 16 0b01000010_10110101 = some (.ldaZpX 0x42#8) := by decide
theorem test_decode_ldaAbs : decodeTableWord 24 0b01000100_10000000_10101101 = some (.ldaAbs 0x4480#16) := by decide
theorem test_decode_ldaAbsX : decodeTableWord 24 0b01000100_11000000_10111101 = some (.ldaAbsX 0x44C0#16) := by decide
theorem test_decode_ldaAbsY : decodeTableWord 24 0b00010010_11110000_10111001 = some (.ldaAbsY 0x12F0#16) := by decide
theorem test_decode_ldaIndX : decodeTableWord 16 0b00100000_10100001 = some (.ldaIndX 0x20#8) := by decide
theorem test_decode_ldaIndY : decodeTableWord 16 0b00110000_10110001 = some (.ldaIndY 0x30#8) := by decide
theorem test_decode_jsr : decodeTableWord 24 0b10000000_00000000_00100000 = some (.jsr 0x8000#16) := by decide
theorem test_decode_FF : decodeTableWord 8 0xFF = none := by decide
theorem test_decode_short_row : decodeTableWord 8 0x20 = some (.jsr 0x0000#16) := by decide
theorem test_decode_truncated : decode [0xAD#8, 0x80#8] = .error (.missingOperand .ldaAbs) := rfl
theorem test_encode_jsr : encode (.jsr 0x1234#16) = [0x20#8, 0x34#8, 0x12#8] := by decide

/-! ### One step of each instruction (95_test_vectors.md 2.3, 2.4) -/

/-- V-L3. -/
theorem test_ldaImm_negative : Tests.load (Tests.running 0x0200#16 [(0x0200, 0xA9#8), (0x0201, 0x80#8)]) =
    some (0x80#8, false, true, 0x0202#16, 8#32, .none) := by decide

/-- V-L4: the instruction wraps the address space. -/
theorem test_ldaImm_wraps : Tests.load (Tests.running 0xFFFF#16 [(0xFFFF, 0xA9#8), (0x0000, 0x7F#8)]) =
    some (0x7F#8, false, false, 0x0001#16, 8#32, .none) := by decide

/-- V-L5. -/
theorem test_ldaZp : Tests.load (Tests.running 0x0200#16 [(0x0200, 0xA5#8), (0x0201, 0x42#8), (0x0042, 0x37#8)]) =
    some (0x37#8, false, false, 0x0202#16, 7#32, .none) := by decide

/-- V-L6: zero replaces the old A. -/
theorem test_ldaZp_zero :
    Tests.load { Tests.running 0x0200#16 [(0x0200, 0xA5#8), (0x0201, 0xFF#8)] with a := 0x55#8 } =
    some (0x00#8, true, false, 0x0202#16, 7#32, .none) := by decide

/-- V-L7 (E3). -/
theorem test_ldaZpX : Tests.load { Tests.running 0x0200#16 [(0x0200, 0xB5#8), (0x0201, 0x42#8), (0x0047, 0x99#8)] with
    x := 0x05#8 } = some (0x99#8, false, true, 0x0202#16, 6#32, .none) := by decide

/-- V-L8: wraps to 0x0010, not 0x0110. -/
theorem test_ldaZpX_wraps : Tests.load { Tests.running 0x0200#16
    [(0x0200, 0xB5#8), (0x0201, 0xF0#8), (0x0010, 0x11#8), (0x0110, 0x22#8)] with x := 0x20#8 } =
    some (0x11#8, false, false, 0x0202#16, 6#32, .none) := by decide

/-- V-L10. -/
theorem test_ldaAbs_zero : Tests.load (Tests.running 0x0200#16 [(0x0200, 0xAD#8), (0x0201, 0x80#8), (0x0202, 0x44#8)]) =
    some (0x00#8, true, false, 0x0203#16, 6#32, .none) := by decide

/-- V-L11: the operand word straddles the wrap. -/
theorem test_ldaAbs_wraps : Tests.load (Tests.running 0xFFFE#16
    [(0xFFFE, 0xAD#8), (0xFFFF, 0x34#8), (0x0000, 0x12#8), (0x1234, 0x80#8)]) =
    some (0x80#8, false, true, 0x0001#16, 6#32, .none) := by decide

/-- V-L14: a page cross with a small index. -/
theorem test_ldaAbsX_cross : Tests.load { Tests.running 0x0200#16
    [(0x0200, 0xBD#8), (0x0201, 0xC0#8), (0x0202, 0x44#8), (0x4500, 0x5A#8)] with x := 0x40#8 } =
    some (0x5A#8, false, false, 0x0203#16, 5#32, .none) := by decide

/-- V-L17: one above the last address. -/
theorem test_ldaAbsX_raises : Tests.load { Tests.running 0x0200#16
    [(0x0200, 0xBD#8), (0x0201, 0x01#8), (0x0202, 0xFF#8)] with x := 0xFF#8, a := 0x55#8 } =
    some (0x55#8, false, false, 0x0203#16, 6#32, .addressOutOfRange) := by decide

/-- V-L19: a page cross with Y. -/
theorem test_ldaAbsY_cross : Tests.load { Tests.running 0x0200#16
    [(0x0200, 0xB9#8), (0x0201, 0xF0#8), (0x0202, 0x12#8), (0x1310, 0x91#8)] with y := 0x20#8 } =
    some (0x91#8, false, true, 0x0203#16, 5#32, .none) := by decide

/-- V-L20: X is not read. -/
theorem test_ldaAbsY_not_X : Tests.load { Tests.running 0x0200#16
    [(0x0200, 0xB9#8), (0x0201, 0xF0#8), (0x0202, 0x12#8), (0x12FF, 0x01#8)] with y := 0x0F#8, x := 0xFF#8 } =
    some (0x01#8, false, false, 0x0203#16, 6#32, .none) := by decide

/-- V-L22: the pointer sum wraps to 0x02. -/
theorem test_ldaIndX_wraps : Tests.load { Tests.running 0x0200#16
    [(0x0200, 0xA1#8), (0x0201, 0xFE#8), (0x0003, 0x30#8), (0x3000, 0xC3#8)] with x := 0x04#8 } =
    some (0xC3#8, false, true, 0x0202#16, 4#32, .none) := by decide

/-- V-L23: a pointer at 0xFF takes its high byte from 0x0100. -/
theorem test_ldaIndX_pointer_FF : Tests.load { Tests.running 0x0200#16 [(0x0200, 0xA1#8), (0x00FF, 0x34#8),
    (0x0100, 0x12#8), (0x0000, 0x99#8), (0x1234, 0x77#8)] with x := 0xFF#8 } =
    some (0x77#8, false, false, 0x0202#16, 4#32, .none) := by decide

/-- V-L24: a page cross. -/
theorem test_ldaIndY_cross : Tests.load { Tests.running 0x0200#16 [(0x0200, 0xB1#8), (0x0201, 0x30#8),
    (0x0030, 0xF8#8), (0x0031, 0x12#8)] with y := 0x10#8, a := 0x55#8 } =
    some (0x00#8, true, false, 0x0202#16, 4#32, .none) := by decide

/-- V-L27: above the last address. -/
theorem test_ldaIndY_raises : Tests.load { Tests.running 0x0200#16 [(0x0200, 0xB1#8), (0x0201, 0x40#8),
    (0x0040, 0xFF#8), (0x0041, 0xFF#8)] with y := 0x01#8, a := 0x55#8 } =
    some (0x55#8, false, false, 0x0202#16, 5#32, .addressOutOfRange) := by decide

/-- V-J5: SP wraps, no fault. -/
theorem test_jsr_sp_wraps : Tests.call { Tests.running 0x1000#16 [(0x1000, 0x20#8), (0x1002, 0x80#8)] with
    sp := 0xFFFE#16 } 0xFFFE 0xFFFF = some (0x02#8, 0x10#8, 0x0000#16, 0x8000#16, 4#32, .none) := by decide

/-- V-J6: the low byte is stored, the high byte's store raises. -/
theorem test_jsr_raises : Tests.call { Tests.running 0x1000#16 [(0x1000, 0x20#8), (0x1002, 0x80#8)] with
    sp := 0xFFFF#16 } 0xFFFF 0x0000 = some (0x02#8, 0x00#8, 0xFFFF#16, 0x1003#16, 7#32, .addressOutOfRange) := by decide

/-! ### Faults, the loop and the host (95_test_vectors.md 2.2, 2.5) -/

/-- E7. -/
theorem test_unassigned : (Tests.after (step (Tests.running 0x0300#16 [(0x0300, 0xFF#8)]))).map
    (fun t => (t.fault, t.faultInfo, t.pc, t.cyc, t.used, t.run)) =
    some (.unhandledOpcode, .opcodeAt 0xFF#8 0x0300#16, 0x0301#16, 9#32, 1#32, .idle) := by decide

/-- V-X7: what an AddressOutOfRange reports. -/
theorem test_report_of_range : (Tests.after (step { Tests.running 0x0200#16
    [(0x0200, 0xBD#8), (0x0201, 0xF0#8), (0x0202, 0xFF#8)] with x := 0x20#8 })).map
    (fun t => (t.faultInfo, t.cyc, t.used, t.run)) = some (.address 0x10010#17, 6#32, 4#32, .idle) := by decide

/-- V-X4's end: CYC = -1 ends the run with USED = REQ - CYC. -/
theorem test_overrun_is_used : (Tests.after (step { Tests.running 0xFFFE#16 [] with cyc := -1#32, req := 1#32 })).map
    (fun t => (t.used, t.run, t.fault)) = some (2#32, .idle, .none) := by decide

/-- V-X8: Execute clears the report of the run before. -/
theorem test_execute_clears : (Tests.after (step { State.reset with
      hostQueue := [.execute 0#32], fault := .addressOutOfRange, faultInfo := .address 0x10010#17 })).map
    (fun t => (t.fault, t.faultInfo, t.run)) = some (.none, .zero, .running) := by decide

/-- C6: a host write to A leaves Z and N alone. -/
theorem test_host_write_a : (Tests.after (step { State.reset with hostQueue := [.write8 .a 0x80#8] })).map
    (fun t => (t.a, t.flags.z, t.flags.n)) = some (0x80#8, false, false) := by decide

/-- V-PC3 and V-PC4. -/
theorem test_pageCross : pageCross 0x44C0#16 0x4500 = true ∧ pageCross 0x4400#16 0x44FF = false := by decide

/-- A placed instruction is the first to run after Reset (E2's bytes). -/
theorem test_withFetchWord : (Tests.after (step (State.reset.withFetchWord 16 0x84A9))).map
    (fun t => (t.a, t.flags.n, t.pc, t.cyc)) = some (0x84#8, true, 0xFFFE#16, -1#32) := by decide

/-! ### Witnesses: a state that meets the hypotheses of each statement, and of each clause at its boundary -/

/-- Idle after a run that did not fail: REQ 10, USED 15. -/
def Tests.idle : State := { State.reset with req := 10#32, cyc := -5#32, used := 15#32 }

/-- A Running machine about to run JSR $4000 at 0x0200. -/
def Tests.jsrAt : State := Tests.running 0x0200#16 [(0x0200, 0x20#8), (0x0202, 0x40#8)]

/-- The same with SP at 0xFFFF, where JSR raises. -/
def Tests.jsrTop : State := { Tests.jsrAt with sp := 0xFFFF#16 }

/-- The same with no budget. -/
def Tests.noBudget : State := { Tests.jsrAt with req := 0#32, cyc := 0#32 }

theorem witness_ResetGivesEveryListedValue : Tests.idle.run = .idle := by decide
theorem witness_ResetIsDeterministicAndIdempotent : Tests.idle.run = .idle ∧ State.reset.run = .idle := by decide
theorem witness_ExecuteLoadsTheBudgetAndStartsTheRun : Tests.idle.run = .idle ∧ Tests.jsrAt.run = .running := by decide
theorem witness_HostAccessWritesOneItemAndReadsAll :
    Tests.idle.run = .idle ∧ Tests.idle.mem.wf = true ∧ Tests.jsrAt.run = .running := by decide
theorem witness_RunningCoreIgnoresTheHost : Tests.jsrAt.run = .running := by decide
theorem witness_IdleStepIsTheNextHostAction : Tests.idle.run = .idle ∧ Tests.idle.hostQueue = [] ∧
    ({ Tests.idle with hostQueue := [.reset] } : State).hostQueue = .reset :: [] := by decide
theorem witness_LoopTestDecidesOnTheCounterAlone : Tests.jsrAt.run = .running ∧
    0 < ({ Tests.jsrAt with cyc := 1#32 } : State).cyc.toInt ∧ ({ Tests.jsrAt with cyc := 0#32 } : State).cyc.toInt ≤ 0 := by
  decide
theorem witness_NormalEndReportsTheCyclesUsed :
    ∃ s : State, s.run = .running ∧ s.cyc.toInt ≤ 0 ∧ s.Inv ∧ 0 < s.req.toInt ∧ s.req.toInt ≤ 0x7FFFFFFA ∧
      -0x80000000 ≤ s.req.toInt - s.cyc.toInt ∧ s.req.toInt - s.cyc.toInt ≤ 0x7FFFFFFF :=
  ⟨{ Tests.jsrAt with req := 0x7FFFFFFA#32, cyc := -5#32 }, by decide, by decide,
    ⟨by decide, by decide, by decide, by decide⟩, by decide, by decide, by decide, by decide⟩
/-- The corner of log 4: a state of the invariant whose `REQ - CYC` does not fit USED. -/
theorem witness_used_does_not_fit : ∃ s : State, s.run = .running ∧ s.cyc.toInt ≤ 0 ∧ s.Inv ∧ usedFits s = false :=
  ⟨{ Tests.jsrAt with req := 0x7FFFFFFF#32, cyc := -1#32 }, by decide, by decide,
    ⟨by decide, by decide, by decide, by decide⟩, by decide⟩
theorem witness_BudgetOfZeroOrLessRunsNothing : Tests.idle.run = .idle ∧
    ({ Tests.idle with hostQueue := [.execute 0#32] } : State).hostQueue = .execute 0#32 :: [] ∧
    (0#32 : Cycles).toInt ≤ 0 := by decide
theorem witness_UnassignedOpcodeEndsTheRun : (Tests.running 0x0300#16 []).run = .running ∧
    0 < (Tests.running 0x0300#16 []).cyc.toInt ∧
    (Tests.running 0x0300#16 []).mem.read (Tests.running 0x0300#16 []).pc.toNat ∉ Opcodes.standard.toList := by decide
theorem witness_StepRunsTheDecodedInstruction : Tests.jsrAt.run = .running ∧ 0 < Tests.jsrAt.cyc.toInt ∧
    decodeWith Opcodes.standard Tests.jsrAt.bytesAtPC = .ok (.jsr 0x4000#16, []) ∧
    (Instr.jsr 0x4000#16).wellFormed = true := ⟨by decide, by decide, rfl, rfl⟩
theorem witness_PlacedInstructionRunsNext :
    Tests.idle.mem.wf = true ∧ decodeTableWord 24 0x400020 = some (.jsr 0x4000#16) := by decide
/-- The conditions of the cycle and PC tables, JSR with SP at 0xFFFF and not, and an unassigned byte. -/
theorem witness_tables : Tests.jsrAt.run = .running ∧ 0 < Tests.jsrAt.cyc.toInt ∧
    decodeWith Opcodes.standard Tests.jsrAt.bytesAtPC = .ok (.jsr 0x4000#16, []) ∧ Tests.jsrAt.sp ≠ 0xFFFF#16 ∧
    offendingAddress (.jsr 0x4000#16) Tests.jsrAt = none ∧
    offendingAddress (.jsr 0x4000#16) { Tests.jsrAt with sp := 0xFFFF#16 } = some 0x10000 ∧
    (Tests.running 0x0300#16 []).mem.read 0x0300 ∉ Opcodes.standard.toList :=
  ⟨by decide, by decide, rfl, by decide, by decide, by decide, by decide⟩
theorem witness_EveryStepChargesItsTableCycles : Tests.jsrAt.run = .running ∧ 0 < Tests.jsrAt.cyc.toInt ∧
    decodeWith Opcodes.standard Tests.jsrAt.bytesAtPC = .ok (.jsr 0x4000#16, []) ∧
    offendingAddress (.jsr 0x4000#16) Tests.jsrAt = none := ⟨by decide, by decide, rfl, by decide⟩
theorem witness_PcAdvancesByTheTable : Tests.jsrAt.run = .running ∧ 0 < Tests.jsrAt.cyc.toInt ∧
    decodeWith Opcodes.standard Tests.jsrAt.bytesAtPC = .ok (.jsr 0x4000#16, []) ∧ Tests.jsrAt.sp ≠ 0xFFFF#16 :=
  ⟨by decide, by decide, rfl, by decide⟩
theorem witness_ExecuteOneRunsOneInstruction :
    ∃ s : State, s.run = .idle ∧ s.hostQueue = [.execute 1#32] ∧ decode s.bytesAtPC = .ok (.ldaImm 0x84#8, [0x00#8]) ∧
      offendingAddress (.ldaImm 0x84#8) s = none :=
  ⟨Tests.put [(0xFFFC, 0xA9#8), (0xFFFD, 0x84#8)] { State.reset with hostQueue := [.execute 1#32] },
    by decide, by decide, rfl, rfl⟩
theorem witness_FetchReadsAtPcAndAdvances : (Tests.running 0xFFFF#16 []).pc = 0xFFFF#16 := by decide
theorem witness_ReadChargesOneCycleAByte : 0xFFFF ≤ 0xFFFF ∧ 0xFFFF < 0x10000 ∧ 0xFFFE < 0xFFFF := by decide
theorem witness_WriteWordStoresLowByteFirst : Tests.jsrAt.mem.wf = true ∧ (0xFFFE#16 : Addr) ≠ 0xFFFF#16 := by decide
theorem witness_RawAccessTouchesOneCell : Tests.jsrAt.mem.wf = true ∧ 0xFFFF ≤ 0xFFFF ∧ 0xFFFF < 0x10000 := by decide
theorem witness_CanonicalMemoriesThatReadAlikeAreEqual :
    ∃ m m' : Memory, m.wf = true ∧ m'.wf = true ∧ ∀ a : Nat, a ≤ 0xFFFF → m.read a = m'.read a :=
  ⟨[(0xFFFF, 1#8)], [(0xFFFF, 1#8)], by decide, by decide, fun _ _ => rfl⟩
theorem witness_PageCrossIsTheCarryOfTheLowByte : 0xFFFF < (0xFF01#16 : Addr).toNat + (0xFF#8 : Byte).toNat := by decide
/-- The last address without and with a page cross, and one above it, for both indexed absolute modes. -/
theorem witness_LdaAbsoluteXResult :
    (0xFF01#16 : Addr).toNat + ({ State.reset with x := 0xFE#8 } : State).x.toNat ≤ 0xFFFF ∧
    (0xFF01#16 : Addr).toNat % 256 + ({ State.reset with x := 0xFE#8 } : State).x.toNat < 256 ∧
    (0xFEFF#16 : Addr).toNat + ({ State.reset with x := 0x01#8 } : State).x.toNat ≤ 0xFFFF ∧
    256 ≤ (0xFEFF#16 : Addr).toNat % 256 + ({ State.reset with x := 0x01#8 } : State).x.toNat ∧
    0xFFFF < (0xFF01#16 : Addr).toNat + ({ State.reset with x := 0xFF#8 } : State).x.toNat := by decide
theorem witness_LdaAbsoluteYResult :
    (0xFF01#16 : Addr).toNat + ({ State.reset with y := 0xFE#8 } : State).y.toNat ≤ 0xFFFF ∧
    (0xFF01#16 : Addr).toNat % 256 + ({ State.reset with y := 0xFE#8 } : State).y.toNat < 256 ∧
    (0xFEFF#16 : Addr).toNat + ({ State.reset with y := 0x01#8 } : State).y.toNat ≤ 0xFFFF ∧
    256 ≤ (0xFEFF#16 : Addr).toNat % 256 + ({ State.reset with y := 0x01#8 } : State).y.toNat ∧
    0xFFFF < (0xFF01#16 : Addr).toNat + ({ State.reset with y := 0xFF#8 } : State).y.toNat := by decide

/-- A machine whose pointer at 0x40 is the base 0xFF01. -/
def Tests.pointer (y : Byte) : State := { Tests.running 0x0200#16 [(0x40, 0x01#8), (0x41, 0xFF#8)] with y := y }

theorem witness_LdaIndirectYResult :
    0xFF01 = (Tests.pointer 0xFE#8).pointerAt (0x40#8 : Byte).toNat ∧
    0xFF01 + (Tests.pointer 0xFE#8).y.toNat ≤ 0xFFFF ∧ 0xFF01 % 256 + (Tests.pointer 0xFE#8).y.toNat < 256 ∧
    0xFF01 = (Tests.pointer 0xFF#8).pointerAt (0x40#8 : Byte).toNat ∧ 0xFFFF < 0xFF01 + (Tests.pointer 0xFF#8).y.toNat ∧
    0x00FF = (Tests.put [(0x40, 0xFF#8)] (Tests.running 0x0200#16 [])).pointerAt (0x40#8 : Byte).toNat ∧
    256 ≤ 0x00FF % 256 + ({ Tests.put [(0x40, 0xFF#8)] (Tests.running 0x0200#16 []) with y := 1#8 } : State).y.toNat := by
  decide
theorem witness_JsrResult : Tests.jsrAt.mem.wf = true ∧ Tests.jsrAt.sp ≠ 0xFFFF#16 ∧
    ({ Tests.jsrAt with sp := 0xFFFF#16 } : State).sp = 0xFFFF#16 ∧ 0x0202#16 = Tests.jsrAt.pc + 2#16 := by decide
theorem witness_LoadFlagOutcomesInEveryMode :
    ∃ t : State, (Instr.ldaImm 0x80#8).form ≠ .jsr ∧ Tests.jsrAt.run = .running ∧
      exec (.ldaImm 0x80#8) Tests.jsrAt = .next t ∧ t.run = .running ∧ 0x80 ≤ t.a.toNat :=
  ⟨_, by decide, by decide, rfl, by decide, by decide⟩
theorem witness_LoadFrame : ∃ t : State, (Instr.ldaImm 0x80#8).form ≠ .jsr ∧ exec (.ldaImm 0x80#8) Tests.jsrAt = .next t :=
  ⟨_, by decide, rfl⟩
theorem witness_JsrFrame : ∃ t u : State, Tests.jsrAt.mem.wf = true ∧ exec (.jsr 0x4000#16) Tests.jsrAt = .next t ∧
    Tests.jsrAt.sp ≠ 0xFFFF#16 ∧ exec (.jsr 0x4000#16) { Tests.jsrAt with sp := 0xFFFF#16 } = .next u :=
  ⟨_, _, by decide, rfl, by decide, rfl⟩
theorem witness_ReturnAddressIsRecoverable : Tests.jsrAt.mem.wf = true ∧ Tests.jsrAt.run = .running ∧
    0 < Tests.jsrAt.cyc.toInt ∧ decodeWith Opcodes.standard Tests.jsrAt.bytesAtPC = .ok (.jsr 0x4000#16, []) ∧
    Tests.jsrAt.sp ≠ 0xFFFF#16 := ⟨by decide, by decide, by decide, rfl, by decide⟩
/-- P5: the stack write lands on the target. -/
theorem witness_FetchSeesTheStackWrite : ∃ s : State, s.mem.wf = true ∧ s.run = .running ∧ 0 < s.cyc.toInt ∧
    decodeWith Opcodes.standard s.bytesAtPC = .ok (.jsr s.sp, []) ∧ s.sp ≠ 0xFFFF#16 :=
  ⟨{ Tests.running 0x02A7#16 [(0x02A7, 0x20#8), (0x02A9, 0x80#8)] with sp := 0x8000#16 },
    by decide, by decide, by decide, rfl, by decide⟩
theorem witness_OutOfRangeIsRaisedByTheTable : Tests.jsrAt.run = .running ∧
    offendingAddress (.ldaIndY 0x40#8) (Tests.pointer 0xFF#8) = some 0x10000 := by decide
theorem witness_FaultEntryRecordsAndEndsTheRun : -0x80000000 ≤ Tests.jsrAt.req.toInt - Tests.jsrAt.cyc.toInt ∧
    Tests.jsrAt.req.toInt - Tests.jsrAt.cyc.toInt ≤ 0x7FFFFFFF := by decide
theorem witness_IndexRegistersChangeOnlyByTheHost :
    ∃ s t : State, step s = .next t ∧ t.x ≠ s.x ∧ t.y = s.y :=
  ⟨{ State.reset with hostQueue := [.write8 .x 1#8] }, _, rfl, by decide, by decide⟩
theorem witness_IndexRegistersChangeOnlyByTheHost_y : ∃ s t : State, step s = .next t ∧ t.y ≠ s.y :=
  ⟨{ State.reset with hostQueue := [.write8 .y 1#8] }, _, rfl, by decide⟩
theorem witness_FiveFlagsAreInert : ∃ s t : State, FlagName.c ≠ .z ∧ FlagName.c ≠ .n ∧ step s = .next t ∧
    t.flags.get .c ≠ s.flags.get .c ∧ Tests.jsrAt.run = .running :=
  ⟨{ State.reset with hostQueue := [.writeFlag .c true] }, _, by decide, by decide, rfl, by decide, by decide⟩
theorem witness_ExecutionDoesNotReadTheReport : Tests.jsrAt.run = .running := by decide
theorem witness_OldAccumulatorIsDiscardedUnread : (Instr.ldaZp 0#8).form ≠ .jsr ∧ Tests.jsrAt.run = .running ∧
    offendingAddress (.ldaZp 0#8) Tests.jsrAt = none := by decide
theorem witness_MemoryChangesOnlyByItsWriters : ∃ t : State, Tests.jsrAt.mem.wf = true ∧ step Tests.jsrAt = .next t ∧
    t.mem.read 0x0101 ≠ Tests.jsrAt.mem.read 0x0101 := ⟨_, by decide, rfl, by decide⟩
theorem witness_StackPointerGrowsByTwoPerJsr : ∃ t : State, runStepWith Opcodes.standard Tests.jsrAt = .next t :=
  ⟨_, rfl⟩
theorem witness_DecodeOfEncode : Opcodes.standard.wellFormed = true ∧ (Instr.jsr 0xFFFF#16).wellFormed = true := by decide
theorem witness_EncodeOfDecode :
    decodeWith Opcodes.standard [0xA9#8, 0x84#8, 0x00#8] = .ok (.ldaImm 0x84#8, [0x00#8]) := rfl
theorem witness_InvariantIsKeptByEveryStep : ∃ t : State, Tests.jsrAt.Inv ∧ step Tests.jsrAt = .next t :=
  ⟨_, ⟨by decide, by decide, by decide, by decide⟩, rfl⟩
theorem witness_CounterStaysInRangeAlongRuns : ∃ t u : State, Tests.jsrAt.Inv ∧ runFor 1 Tests.jsrAt = .next t ∧
    0 < t.req.toInt ∧ State.reset.Inv ∧ runFor 1 State.reset = .next u ∧ u.req.toInt ≤ 0 :=
  ⟨_, _, ⟨by decide, by decide, by decide, by decide⟩, rfl, by decide, ⟨by decide, by decide, by decide, by decide⟩,
    rfl, by decide⟩
theorem witness_EveryRunEnds : Tests.jsrAt.run = .running := by decide
theorem witness_ReportedCyclesAreInRange : ∃ s t u v : State,
    s.Inv ∧ step s = .next t ∧ t.run = .idle ∧ t.fault = .none ∧ 0 < t.req.toInt ∧ t.req.toInt ≤ 0x7FFFFFFA ∧
    Tests.jsrTop.Inv ∧ step Tests.jsrTop = .next u ∧ u.run = .idle ∧ u.fault ≠ .none ∧
    Tests.noBudget.Inv ∧ step Tests.noBudget = .next v ∧ v.run = .idle ∧ v.req.toInt ≤ 0 :=
  ⟨{ Tests.jsrAt with req := 0x7FFFFFFA#32, cyc := -5#32 }, _, _, _,
    ⟨by decide, by decide, by decide, by decide⟩, rfl, by decide, by decide, by decide, by decide,
    ⟨by decide, by decide, by decide, by decide⟩, rfl, by decide, by decide,
    ⟨by decide, by decide, by decide, by decide⟩, rfl, by decide, by decide⟩
/-- A machine at power-on that holds other values than Reset leaves, and its host's first action. -/
theorem witness_FirstResetDefinesThePoweredOnMachine :
    ({ Tests.jsrAt with hostQueue := [.reset] } : State).hostQueue = .reset :: [] ∧
    State.powerOn Tests.jsrAt ≠ State.reset ∧ (State.powerOn Tests.jsrAt).run = .idle := by decide

/-! The premises of `UsedIsReported`, after a step that raises, for each statement that has it. -/

theorem witness_UsedIsReported_unassigned : ∃ t : State, step (Tests.running 0x0300#16 []) = .next t ∧
    t.fault = .unhandledOpcode ∧ -0x80000000 ≤ t.req.toInt - t.cyc.toInt ∧ t.req.toInt - t.cyc.toInt ≤ 0x7FFFFFFF :=
  ⟨_, rfl, by decide, by decide, by decide⟩
theorem witness_UsedIsReported_ldaAbsX : ∃ t : State,
    exec (.ldaAbsX 0xFFFF#16) { Tests.jsrAt with x := 1#8 } = .next t ∧ t.fault = .addressOutOfRange ∧
    -0x80000000 ≤ t.req.toInt - t.cyc.toInt ∧ t.req.toInt - t.cyc.toInt ≤ 0x7FFFFFFF :=
  ⟨_, rfl, by decide, by decide, by decide⟩
theorem witness_UsedIsReported_ldaAbsY : ∃ t : State,
    exec (.ldaAbsY 0xFFFF#16) { Tests.jsrAt with y := 1#8 } = .next t ∧ t.fault = .addressOutOfRange ∧
    -0x80000000 ≤ t.req.toInt - t.cyc.toInt ∧ t.req.toInt - t.cyc.toInt ≤ 0x7FFFFFFF :=
  ⟨_, rfl, by decide, by decide, by decide⟩
theorem witness_UsedIsReported_ldaIndY : ∃ t : State,
    exec (.ldaIndY 0x40#8) (Tests.pointer 0xFF#8) = .next t ∧ t.fault = .addressOutOfRange ∧
    -0x80000000 ≤ t.req.toInt - t.cyc.toInt ∧ t.req.toInt - t.cyc.toInt ≤ 0x7FFFFFFF :=
  ⟨_, rfl, by decide, by decide, by decide⟩
theorem witness_UsedIsReported_jsr : ∃ t : State,
    exec (.jsr 0x4000#16) Tests.jsrTop = .next t ∧ t.fault = .addressOutOfRange ∧
    -0x80000000 ≤ t.req.toInt - t.cyc.toInt ∧ t.req.toInt - t.cyc.toInt ≤ 0x7FFFFFFF :=
  ⟨_, rfl, by decide, by decide, by decide⟩
end

section
/-! The host's interface (spec/00_scope.md R8, R9): when an action is accepted and when a read answers, said once,
then what each kind of write does. -/

namespace Sys2Proof.Machine

theorem hostAct_of_idle {s : State} (h : s.run = .idle) (act : HostAction) :
    hostAct act s = .next (applyHost act s) := by
  simp [hostAct, h]

theorem hostAct_of_running {s : State} (h : s.run = .running) (act : HostAction) :
    hostAct act s = .refused .hostActionWhileRunning := by
  simp [hostAct, h]

theorem whileIdle_of_idle {α : Type} {s : State} (h : s.run = .idle) (v : α) : whileIdle s v = some v := by
  simp [whileIdle, h]

theorem whileIdle_of_running {α : Type} {s : State} (h : s.run = .running) (v : α) : whileIdle s v = none := by
  simp [whileIdle, h]

/-- Read after write of a flag (R26): the flags are independent. -/
theorem Flags.get_set (f : Flags) (name : FlagName) (v : Bool) (g : FlagName) :
    (f.set name v).get g = if g = name then v else f.get g := by
  cases name <;> cases g <;> rfl

/-- An accepted flag write (R9), by what the flags read as afterwards. -/
theorem hostAct_writeFlag_of_idle {s : State} (h : s.run = .idle) (f : FlagName) (v : Bool) :
    ∃ t : State, hostAct (.writeFlag f v) s = .next t ∧ t = { s with flags := t.flags } ∧
      t.flags.get f = v ∧ ∀ g, g ≠ f → t.flags.get g = s.flags.get g := by
  refine ⟨{ s with flags := s.flags.set f v }, hostAct_of_idle h _, rfl, ?_, fun g hg => ?_⟩
  · rw [Flags.get_set, if_pos rfl]
  · rw [Flags.get_set, if_neg hg]

/-- An accepted memory write (R9, R53), by what the cells read as afterwards. -/
theorem hostAct_writeMem_of_idle {s : State} (h : s.run = .idle) (hm : s.mem.wf = true) (addr : Addr) (v : Byte) :
    ∃ t : State, hostAct (.writeMem addr v) s = .next t ∧ t = { s with mem := t.mem } ∧
      t.mem.read addr.toNat = v ∧ ∀ c : Nat, c ≠ addr.toNat → t.mem.read c = s.mem.read c := by
  refine ⟨{ s with mem := s.mem.write addr.toNat v }, hostAct_of_idle h _, rfl, ?_, fun c hc => ?_⟩
  · rw [Memory.read_write _ _ _ hm, if_pos rfl]
  · rw [Memory.read_write _ _ _ hm, if_neg hc.symm]

/-- Settles O4: while Idle every action is applied and every read answers, while Running none is (R9, R210); that a
write reaches one item only is read after write, of the flags and of the memory. -/
theorem hostAccessWritesOneItemAndReadsAll : Obligations.HostAccessWritesOneItemAndReadsAll := by
  intro s
  constructor
  · intro h
    exact ⟨fun _ => hostAct_of_idle h _, fun _ => hostAct_of_idle h _, fun _ => hostAct_of_idle h _,
      fun _ => hostAct_of_idle h _, fun _ => hostAct_of_idle h _,
      hostAct_writeFlag_of_idle h, hostAct_writeMem_of_idle h,
      fun _ => whileIdle_of_idle h _,
      whileIdle_of_idle h _, whileIdle_of_idle h _, whileIdle_of_idle h _,
      whileIdle_of_idle h _, whileIdle_of_idle h _, fun _ => whileIdle_of_idle h _⟩
  · intro h
    exact ⟨hostAct_of_running h, fun _ => whileIdle_of_running h _, fun _ => whileIdle_of_running h _,
      fun _ => whileIdle_of_running h _, fun _ => whileIdle_of_running h _⟩

/-- Settles O6: taking an action off the queue leaves the core Idle, so the action is accepted. -/
theorem idleStepIsTheNextHostAction : Obligations.IdleStepIsTheNextHostAction := by
  intro s h
  constructor
  · exact step_idle_nil h
  · intro act rest hq
    exact ⟨_, step_idle_cons h hq, hostAct_of_idle (s := { s with hostQueue := rest }) h act⟩

end Sys2Proof.Machine
end

section
/-! What one move of the Running core does (spec/43_execute_loop.md R151, R152), as one relation over every assignment of
the opcode parameters: each of its constructors is a way the move can go, with the state it leaves. The rules about the
whole machine are case analyses of it. -/

namespace Sys2Proof.Machine

/-! ### What a meaning reads is not touched by the fetches -/

@[simp] theorem offendingAddress_fetched (i : Instr) (s : State) (n : Nat) :
    offendingAddress i (s.fetched n) = offendingAddress i s := rfl

@[simp] theorem loadValue_fetched (i : Instr) (s : State) (n : Nat) : loadValue i (s.fetched n) = loadValue i s := rfl

@[simp] theorem meaningCharge_fetched (i : Instr) (s : State) (n : Nat) :
    meaningCharge i (s.fetched n) = meaningCharge i s := rfl

/-- What JSR pushes, by the PC before its fetches: the address of its last byte (spec/42_control_transfer.md R140). -/
theorem returnValue_fetched (s : State) : returnValue (s.fetched 3) = s.pc + 2#16 := by
  simp only [returnValue, State.fetched]
  bv_omega

theorem crossCycle_le_one (low idx : Nat) : crossCycle low idx ≤ 1 := by
  unfold crossCycle
  split <;> omega

theorem instr_length_le_three (i : Instr) : i.length ≤ 3 := by
  unfold Instr.length
  cases i.form <;> decide

/-- No instruction charges more than 6 cycles (R161). -/
theorem cycleTotal_le_six (i : Instr) (s : State) : cycleTotal i s ≤ 6 := by
  cases i with
  | ldaAbsX addr =>
    have := crossCycle_le_one (addr.toNat % 256) s.x.toNat
    rw [cycleTotal]
    split <;> omega
  | ldaAbsY addr =>
    have := crossCycle_le_one (addr.toNat % 256) s.y.toNat
    rw [cycleTotal]
    split <;> omega
  | ldaIndY zp =>
    have := crossCycle_le_one (s.mem.read zp.toNat).toNat s.y.toNat
    rw [cycleTotal]
    split <;> omega
  | jsr target =>
    rw [cycleTotal]
    split <;> omega
  | _ => simp [cycleTotal]

theorem length_add_meaningCharge_le_six (i : Instr) (s : State) : i.length + meaningCharge i s ≤ 6 := by
  have := instr_length_le_three i
  have := cycleTotal_le_six i s
  unfold meaningCharge
  omega

/-! ### The fetched bytes and the step -/

/-- Bytes at PC that decode begin with the opcode byte of what they decode to (spec/30_encoding.md R84). -/
theorem lookup_of_decoded {o : Opcodes} {s : State} {i : Instr} {rest : List Byte}
    (hd : decodeWith o s.bytesAtPC = .ok (i, rest)) : o.lookup (s.mem.read s.pc.toNat) = some i.form := by
  rcases instrStep_cases o s with ⟨hn, _⟩ | ⟨j, r, hl, hd', _⟩
  · simp [decodeWith, State.bytesAtPC, Opcodes.lookup_eq_none.2 hn] at hd
  · rw [hd] at hd'
    cases hd'
    exact hl

/-- A step at an unassigned opcode byte (R88, R92, spec/60_exceptions.md R171). -/
theorem runStepWith_unassigned {o : Opcodes} {s : State} (hc : 0 < s.cyc.toInt)
    (hb : s.mem.read s.pc.toNat ∉ o.toList) :
    runStepWith o s = .next (takeFault (.unhandledOpcode (s.mem.read s.pc.toNat) s.pc) (s.fetched 1)) := by
  rw [runStepWith_pos hc]
  rcases instrStep_cases o s with ⟨_, e⟩ | ⟨i, rest, hl, _, _⟩
  · exact e
  · rw [Opcodes.lookup_eq_none.2 hb] at hl
    cases hl

/-- A step at bytes that decode. -/
theorem runStepWith_decoded {o : Opcodes} {s : State} {i : Instr} {rest : List Byte} (hc : 0 < s.cyc.toInt)
    (hd : decodeWith o s.bytesAtPC = .ok (i, rest)) : runStepWith o s = exec i (s.fetched i.length) :=
  (runStepWith_pos hc).trans (instrStep_decoded hd)

/-- JSR where its word has room, by the state before its fetches (R140). -/
theorem exec_jsr_fetched {s : State} (target : Addr) (hs : s.sp ≠ 0xFFFF#16) :
    exec (.jsr target) (s.fetched 3) = .next { s with
      mem := (s.mem.write s.sp.toNat (lo8 (s.pc + 2#16))).write (s.sp.toNat + 1) (hi8 (s.pc + 2#16)),
      sp := s.sp + 2#16, pc := target, cyc := s.cyc - 6#32 } := by
  rcases exec_jsr_cases target (s.fetched 3) with ⟨_, e⟩ | ⟨h, _⟩
  · have hcyc : (s.fetched 3).cyc - 3#32 = s.cyc - 6#32 := BitVec.sub_sub s.cyc 3#32 3#32
    rw [e, returnValue_fetched, hcyc]
    rfl
  · exact absurd h hs

/-- JSR at SP = 0xFFFF, by the state before its fetches (R140, R173). -/
theorem exec_jsr_fetched_top {s : State} (target : Addr) (hs : s.sp = 0xFFFF#16) :
    exec (.jsr target) (s.fetched 3) = .next (takeFault (.addressOutOfRange 0x10000#17)
      { s.fetched 3 with mem := s.mem.write 0xFFFF (lo8 (s.pc + 2#16)) }) := by
  rcases exec_jsr_cases target (s.fetched 3) with ⟨h, _⟩ | ⟨_, e⟩
  · exact absurd hs h
  · rw [e, returnValue_fetched]
    rfl

/-! ### The relation -/

/-- `CoreMove o s t`: the Running core's move from `s` leaves `t`. -/
inductive CoreMove (o : Opcodes) (s : State) : State → Prop
  /-- No budget is left: the normal end (R155). -/
  | finish (hc : s.cyc.toInt ≤ 0) : CoreMove o s (endRun s)
  /-- The byte at PC is no opcode (spec/60_exceptions.md R171). -/
  | unassigned (hc : 0 < s.cyc.toInt) (hb : s.mem.read s.pc.toNat ∉ o.toList) :
      CoreMove o s (takeFault (.unhandledOpcode (s.mem.read s.pc.toNat) s.pc) (s.fetched 1))
  /-- A load that completes (spec/41_load_accumulator.md R120). -/
  | load (i : Instr) (rest : List Byte) (hc : 0 < s.cyc.toInt) (hd : decodeWith o s.bytesAtPC = .ok (i, rest))
      (hi : i.form ≠ .jsr) (ha : offendingAddress i s = none) :
      CoreMove o s (loaded (loadValue i s) (charge (meaningCharge i s) (s.fetched i.length)))
  /-- A load that raises (R173). -/
  | loadRaised (i : Instr) (rest : List Byte) (a : Nat) (hc : 0 < s.cyc.toInt)
      (hd : decodeWith o s.bytesAtPC = .ok (i, rest)) (hi : i.form ≠ .jsr) (ha : offendingAddress i s = some a) :
      CoreMove o s (takeFault (.addressOutOfRange (BitVec.ofNat 17 a))
        (charge (meaningCharge i s) (s.fetched i.length)))
  /-- A JSR that completes (spec/42_control_transfer.md R140). -/
  | jsr (target : Addr) (rest : List Byte) (hc : 0 < s.cyc.toInt)
      (hd : decodeWith o s.bytesAtPC = .ok (.jsr target, rest)) (hs : s.sp ≠ 0xFFFF#16) :
      CoreMove o s { s with
        mem := (s.mem.write s.sp.toNat (lo8 (s.pc + 2#16))).write (s.sp.toNat + 1) (hi8 (s.pc + 2#16)),
        sp := s.sp + 2#16, pc := target, cyc := s.cyc - 6#32 }
  /-- A JSR that raises after its first store (R140, R173). -/
  | jsrRaised (target : Addr) (rest : List Byte) (hc : 0 < s.cyc.toInt)
      (hd : decodeWith o s.bytesAtPC = .ok (.jsr target, rest)) (hs : s.sp = 0xFFFF#16) :
      CoreMove o s (takeFault (.addressOutOfRange 0x10000#17)
        { s.fetched 3 with mem := s.mem.write 0xFFFF (lo8 (s.pc + 2#16)) })

/-- The relation says what the core does. -/
theorem CoreMove.runStepWith_eq {o : Opcodes} {s t : State} (h : CoreMove o s t) : runStepWith o s = .next t := by
  cases h with
  | finish hc => exact runStepWith_done hc
  | unassigned hc hb => exact runStepWith_unassigned hc hb
  | load i rest hc hd hi ha => exact (runStepWith_decoded hc hd).trans (exec_load_ok hi ha)
  | loadRaised i rest a hc hd hi ha => exact (runStepWith_decoded hc hd).trans (exec_load_raised hi ha)
  | jsr target rest hc hd hs => exact (runStepWith_decoded hc hd).trans (exec_jsr_fetched target hs)
  | jsrRaised target rest hc hd hs => exact (runStepWith_decoded hc hd).trans (exec_jsr_fetched_top target hs)

/-- The core has a move from every state. -/
theorem exists_coreMove (o : Opcodes) (s : State) : ∃ t, CoreMove o s t := by
  rcases lt_or_ge 0 s.cyc.toInt with hc | hc
  · rcases instrStep_cases o s with ⟨hb, _⟩ | ⟨i, rest, _, hd, _⟩
    · exact ⟨_, .unassigned hc hb⟩
    · by_cases hi : i.form = .jsr
      · obtain ⟨target, rfl⟩ : ∃ target, i = .jsr target := by cases i <;> simp [Instr.form] at hi ⊢
        by_cases hs : s.sp = 0xFFFF#16
        · exact ⟨_, .jsrRaised target rest hc hd hs⟩
        · exact ⟨_, .jsr target rest hc hd hs⟩
      · cases ha : offendingAddress i s with
        | none => exact ⟨_, .load i rest hc hd hi ha⟩
        | some a => exact ⟨_, .loadRaised i rest a hc hd hi ha⟩
  · exact ⟨_, .finish hc⟩

/-- And it says all the core can do. -/
theorem runStepWith_eq_next_iff {o : Opcodes} {s t : State} : runStepWith o s = .next t ↔ CoreMove o s t := by
  constructor
  · intro h
    obtain ⟨u, hu⟩ := exists_coreMove o s
    cases h.symm.trans hu.runStepWith_eq
    exact hu
  · exact CoreMove.runStepWith_eq

theorem State.run_cases (s : State) : s.run = .idle ∨ s.run = .running := by
  cases s.run <;> simp

/-- All a step can do: nothing or the host's next action while Idle, a move of the core while Running. -/
theorem step_cases {s t : State} (h : step s = .next t) :
    (s.run = .idle ∧ (t = s ∨
      ∃ act rest, s.hostQueue = act :: rest ∧ t = applyHost act { s with hostQueue := rest })) ∨
    (s.run = .running ∧ CoreMove Opcodes.standard s t) := by
  rcases s.run_cases with hr | hr
  · refine .inl ⟨hr, ?_⟩
    cases hq : s.hostQueue with
    | nil =>
      cases h.symm.trans (step_idle_nil hr hq)
      exact .inl rfl
    | cons act rest =>
      cases h.symm.trans (step_idle_cons hr hq)
      exact .inr ⟨act, rest, rfl, rfl⟩
  · exact .inr ⟨hr, runStepWith_eq_next_iff.1 ((step_running hr).symm.trans h)⟩

end Sys2Proof.Machine
end

section
/-! Memory in canonical form is determined by what its cells read as (spec/10_state.md R39). -/

namespace Sys2Proof.Machine

/-- A canonical list does not begin with a cell below another's first one, if the two read alike: that cell would read
as an unlisted one. -/
theorem Memory.head_not_lt_of_read_eq {lo a b : Nat} {v w : Byte} {m m' : Memory}
    (h : Memory.wfFrom lo ((a, v) :: m) = true) (h' : Memory.wfFrom lo ((b, w) :: m') = true)
    (he : Memory.read ((a, v) :: m) a = Memory.read ((b, w) :: m') a) : ¬ a < b := by
  intro hlt
  obtain ⟨_, _, hv, _⟩ := (Memory.wfFrom_cons ..).1 h
  have hb : Memory.wfFrom b ((b, w) :: m') = true :=
    (Memory.wfFrom_cons ..).2 ⟨le_refl b, ((Memory.wfFrom_cons ..).1 h').2⟩
  rw [Memory.read_cons, if_pos rfl, Memory.read_below hb hlt] at he
  exact hv he

/-- A canonical list with a first cell does not read alike with the empty one. -/
theorem Memory.read_head_ne_unlisted {lo a : Nat} {v : Byte} {m : Memory}
    (h : Memory.wfFrom lo ((a, v) :: m) = true) : Memory.read ((a, v) :: m) a ≠ Memory.unlisted := by
  rw [Memory.read_cons, if_pos rfl]
  exact ((Memory.wfFrom_cons ..).1 h).2.2.1

/-- Two memories listed from `lo` up that read alike at every address are the same list. -/
theorem Memory.ext_of_read_eq : ∀ {lo : Nat} {m m' : Memory}, Memory.wfFrom lo m = true →
    Memory.wfFrom lo m' = true → (∀ c, c < Config.memSize → m.read c = m'.read c) → m = m'
  | _, [], [], _, _, _ => rfl
  | _, [], (b, _) :: _, _, h', he =>
    absurd (he b ((Memory.wfFrom_cons ..).1 h').2.1).symm (Memory.read_head_ne_unlisted h')
  | _, (a, _) :: _, [], h, _, he =>
    absurd (he a ((Memory.wfFrom_cons ..).1 h).2.1) (Memory.read_head_ne_unlisted h)
  | lo, (a, v) :: m, (b, w) :: m', h, h', he => by
    obtain ⟨_, ha, _, hm⟩ := (Memory.wfFrom_cons ..).1 h
    obtain ⟨_, hb, _, hm'⟩ := (Memory.wfFrom_cons ..).1 h'
    have hab : a = b := le_antisymm
      (not_lt.1 (Memory.head_not_lt_of_read_eq h' h (he b hb).symm))
      (not_lt.1 (Memory.head_not_lt_of_read_eq h h' (he a ha)))
    subst hab
    have hvw : v = w := by simpa [Memory.read_cons] using he a ha
    have htail : m = m' := Memory.ext_of_read_eq hm hm' fun c hc => by
      by_cases hac : a = c
      · subst hac
        rw [Memory.read_below hm (Nat.lt_succ_self a), Memory.read_below hm' (Nat.lt_succ_self a)]
      · simpa [Memory.read_cons, hac] using he c hc
    rw [hvw, htail]

/-- Settles O20: the two lists begin with the same cell, and their rests read alike. -/
theorem canonicalMemoriesThatReadAlikeAreEqual : Obligations.CanonicalMemoriesThatReadAlikeAreEqual :=
  fun _ _ h h' he => Memory.ext_of_read_eq h h' fun c hc => he c (Nat.le_of_lt_succ hc)

end Sys2Proof.Machine
end

section
/-! The invariant of the machine (spec/43_execute_loop.md R157, spec/60_exceptions.md R174): each of its clauses under
what ends a run or goes on with it, then every move of the core and every action of the host. -/

namespace Sys2Proof.Machine

/-! ### The report of a failure -/

theorem reportConsistent_none {s : State} (hf : s.fault = .none) :
    s.reportConsistent = true ↔ s.faultInfo = .zero := by
  unfold State.reportConsistent
  cases hi : s.faultInfo <;> simp [hf]

theorem takeFault_unhandled_reportConsistent {b : Byte} (pc : Addr) (s : State)
    (hb : b ∉ Opcodes.standard.toList) : (takeFault (.unhandledOpcode b pc) s).reportConsistent = true := by
  simp [State.reportConsistent, Raise.code, Raise.info, Opcodes.lookup_eq_none.2 hb]

theorem takeFault_outOfRange_reportConsistent {a : Nat} (s : State) (ha : 0x10000 ≤ a ∧ a ≤ 0x100FE) :
    (takeFault (.addressOutOfRange (BitVec.ofNat 17 a)) s).reportConsistent = true := by
  simp [State.reportConsistent, Raise.code, Raise.info]
  omega

/-! ### The counter -/

/-- An instruction, begun only with budget left, charges at most 6 cycles and so leaves CYC at -5 or more (R157). -/
theorem counterInRange_of_charged {s t : State} {n : Nat} (h : s.counterInRange = true) (hc : 0 < s.cyc.toInt)
    (hn : n ≤ 6) (hreq : t.req = s.req) (hcyc : t.cyc = s.cyc - BitVec.ofNat 32 n) : t.counterInRange = true := by
  have hle : 0 < s.req.toInt ∧ s.cyc.toInt ≤ s.req.toInt := by
    unfold State.counterInRange at h
    split at h
    · simp_all
    · rw [beq_iff_eq] at h
      rw [h] at hc
      contradiction
  have hexact : t.cyc.toInt = s.cyc.toInt - n := by
    have := s.cyc.toInt_lt
    rw [hcyc, BitVec.toInt_sub, BitVec.toInt_ofNat', Int.bmod_def, Int.bmod_def]
    omega
  rw [State.counterInRange, hreq, if_pos hle.1, hexact]
  simp
  omega

/-- The whole charge of an instruction: its fetches and its meaning. -/
theorem charge_fetched_cyc (m n : Nat) (s : State) :
    (charge m (s.fetched n)).cyc = s.cyc - BitVec.ofNat 32 (n + m) := by
  rw [charge_cyc, BitVec.ofNat_add]
  exact BitVec.sub_sub ..

/-! ### Ending a run, and going on with it -/

/-- The end of a run reports `REQ - CYC` where it fits (R155, R174). -/
theorem endRun_reportOfRun {s : State} (h : s.fault ≠ .none ∨ s.cyc.toInt ≤ 0) :
    (endRun s).reportOfRun = true := by
  have hused : usedFits s = true → (endRun s).used = s.req - s.cyc := fun hf => by rw [endRun_fits hf]
  have hfits : usedFits (endRun s) = usedFits s := by simp [usedFits]
  cases hf : usedFits s <;> simp_all [State.reportOfRun]

/-- Fault entry gives a state of the invariant, if what it records can arise (R174). -/
theorem takeFault_inv {s : State} {r : Raise} (hm : s.mem.wf = true) (hc : s.counterInRange = true)
    (hr : (takeFault r s).reportConsistent = true) : (takeFault r s).Inv where
  memory := by simpa using hm
  report := hr
  counter := by simpa [State.counterInRange] using hc
  run := endRun_reportOfRun (.inl (by cases r <;> simp [Raise.code]))

/-- While Running the invariant is: memory in canonical form, no failure recorded, CYC in range (R150). -/
theorem inv_iff_of_running {s : State} (hr : s.run = .running) :
    s.Inv ↔ s.mem.wf = true ∧ s.fault = .none ∧ s.faultInfo = .zero ∧ s.counterInRange = true := by
  have hrun : s.reportOfRun = true ↔ s.fault = .none := by simp [State.reportOfRun, hr]
  constructor
  · intro ⟨hm, hrep, hc, hu⟩
    have hf := hrun.1 hu
    exact ⟨hm, hf, (reportConsistent_none hf).1 hrep, hc⟩
  · intro ⟨hm, hf, hi, hc⟩
    exact ⟨hm, (reportConsistent_none hf).2 hi, hc, hrun.2 hf⟩

/-- Every move of the Running core keeps the invariant. -/
theorem CoreMove.inv {s t : State} (hr : s.run = .running) (h : CoreMove Opcodes.standard s t) (hs : s.Inv) :
    t.Inv := by
  obtain ⟨hm, hf, hi, hk⟩ := (inv_iff_of_running hr).1 hs
  cases h with
  | finish hc =>
    exact ⟨by simpa using hm, by simpa [reportConsistent_none, hf] using hi, by simpa [State.counterInRange] using hk,
      endRun_reportOfRun (.inr hc)⟩
  | unassigned hc hb =>
    exact takeFault_inv hm (counterInRange_of_charged (n := 1) hk hc (by omega) rfl rfl)
      (takeFault_unhandled_reportConsistent _ _ hb)
  | load i rest hc hd hj ha =>
    exact (inv_iff_of_running (by exact hr)).2 ⟨hm, hf, hi,
      counterInRange_of_charged hk hc (length_add_meaningCharge_le_six i s) rfl (charge_fetched_cyc ..)⟩
  | loadRaised i rest a hc hd hj ha =>
    exact takeFault_inv hm
      (counterInRange_of_charged hk hc (length_add_meaningCharge_le_six i s) rfl (charge_fetched_cyc ..))
      (takeFault_outOfRange_reportConsistent _ (offendingAddress_range ha))
  | jsr target rest hc hd hsp =>
    have hsucc : s.sp.toNat + 1 < Config.memSize := by
      have hne : s.sp.toNat ≠ 0xFFFF := fun e => hsp (BitVec.eq_of_toNat_eq e)
      have := s.sp.isLt
      simp only [Config.memSize]
      omega
    exact (inv_iff_of_running (by exact hr)).2
      ⟨Memory.wf_write _ (Memory.wf_write _ hm (addr_lt _)) hsucc, hf, hi,
        counterInRange_of_charged (n := 6) hk hc (le_refl 6) rfl rfl⟩
  | jsrRaised target rest hc hd hsp =>
    exact takeFault_inv (Memory.wf_write _ hm (by decide))
      (counterInRange_of_charged (n := 3) hk hc (by omega) rfl rfl)
      (takeFault_outOfRange_reportConsistent (a := 0x10000) _ (by decide))

/-- Acceptance of Execute keeps the invariant: CYC starts at REQ, and the last failure is cleared (R150). -/
theorem acceptExecute_inv {s : State} (budget : Cycles) (hs : s.Inv) : (acceptExecute budget s).Inv := by
  refine (inv_iff_of_running (acceptExecute_run ..)).2 ⟨hs.memory, rfl, rfl, ?_⟩
  by_cases h : 0 < budget.toInt
  · have hlow : -5 ≤ budget.toInt := by omega
    simp [State.counterInRange, h, hlow]
  · simp [State.counterInRange, h]

/-- Every action of the host keeps the invariant (spec/00_scope.md R8, R9). -/
theorem applyHost_inv {s : State} (act : HostAction) (hs : s.Inv) : (applyHost act s).Inv := by
  cases act with
  | reset => exact resetCore_inv s
  | execute budget => exact acceptExecute_inv budget hs
  | writeMem addr v => exact ⟨Memory.wf_write v hs.memory (addr_lt addr), hs.report, hs.counter, hs.run⟩
  | write8 r v => cases r <;> exact ⟨hs.memory, hs.report, hs.counter, hs.run⟩
  | write16 r v => cases r <;> exact ⟨hs.memory, hs.report, hs.counter, hs.run⟩
  | writeFlag f v => exact ⟨hs.memory, hs.report, hs.counter, hs.run⟩

/-- Settles O51: the reset state is what Reset leaves of itself. -/
theorem invariantHoldsAtReset : Obligations.InvariantHoldsAtReset :=
  resetCore_inv State.reset

/-- Settles O52: an Idle step does nothing or a host action, a Running one is a move of the core. -/
theorem invariantIsKeptByEveryStep : Obligations.InvariantIsKeptByEveryStep := by
  intro s t hs h
  rcases step_cases h with ⟨_, rfl | ⟨act, rest, _, rfl⟩⟩ | ⟨hr, hmove⟩
  · exact hs
  · exact applyHost_inv act ⟨hs.memory, hs.report, hs.counter, hs.run⟩
  · exact hmove.inv hr hs

end Sys2Proof.Machine
end

section
/-! Who may change a piece of state: X and Y, the five inert flags, memory and SP (spec/10_state.md R22, R23, R25, R29 to
R33, R39), each by what the core's move and the host's action leave of it. -/

namespace Sys2Proof.Machine

/-- What a move of the core leaves as it was, a step can change only while Idle and only by the host's next action. -/
theorem step_changes_by_host {s t : State} {α : Type} {item : State → α} (h : step s = .next t)
    (hne : item t ≠ item s) (hq : ∀ rest, item { s with hostQueue := rest } = item s)
    (hcore : ∀ u, CoreMove Opcodes.standard s u → item u = item s) :
    s.run = .idle ∧ ∃ act rest, s.hostQueue = act :: rest ∧ t = applyHost act { s with hostQueue := rest } ∧
      item (applyHost act { s with hostQueue := rest }) ≠ item { s with hostQueue := rest } := by
  rcases step_cases h with ⟨hr, rfl | ⟨act, rest, hs, rfl⟩⟩ | ⟨_, hmove⟩
  · exact absurd rfl hne
  · exact ⟨hr, act, rest, hs, rfl, (hq rest).symm ▸ hne⟩
  · exact absurd (hcore t hmove) hne

/-! ### The index registers -/

/-- The core's moves write no 8-bit register but A (R22, R23). -/
theorem CoreMove.read8_eq {o : Opcodes} {s t : State} (h : CoreMove o s t) {r : Reg8} (hr : r ≠ .a) :
    t.read8 r = s.read8 r := by
  have hxy : t.x = s.x ∧ t.y = s.y := by
    cases h with
    | finish hc => exact ⟨endRun_x s, endRun_y s⟩
    | load => exact ⟨rfl, rfl⟩
    | jsr => exact ⟨rfl, rfl⟩
    | _ => exact ⟨takeFault_x .., takeFault_y ..⟩
  cases r with
  | a => exact absurd rfl hr
  | x => exact hxy.1
  | y => exact hxy.2

/-- The host changes an 8-bit register by Reset and by writing it. -/
theorem applyHost_read8_ne {act : HostAction} {s : State} {r : Reg8}
    (h : (applyHost act s).read8 r ≠ s.read8 r) : act = .reset ∨ ∃ v, act = .write8 r v := by
  cases act with
  | reset => exact .inl rfl
  | write8 q v =>
    by_cases hq : q = r
    · exact .inr ⟨v, hq ▸ rfl⟩
    · exact absurd (by cases q <;> cases r <;> simp [applyHost, State.write8, State.read8] at hq ⊢) h
  | write16 q v => cases q <;> cases r <;> exact absurd rfl h
  | _ => cases r <;> exact absurd rfl h

/-- An index register changes only by the host (R22, R23). -/
theorem step_read8_ne {s t : State} (h : step s = .next t) {r : Reg8} (hr : r ≠ .a) (hne : t.read8 r ≠ s.read8 r) :
    s.run = .idle ∧ ∃ rest, s.hostQueue = .reset :: rest ∨ ∃ v, s.hostQueue = .write8 r v :: rest := by
  obtain ⟨hidle, act, rest, hq, _, hact⟩ := step_changes_by_host (item := fun u => u.read8 r) h hne
    (fun _ => by cases r <;> rfl) (fun _ hu => hu.read8_eq hr)
  refine ⟨hidle, rest, ?_⟩
  rcases applyHost_read8_ne hact with rfl | ⟨v, rfl⟩
  · exact .inl hq
  · exact .inr ⟨v, hq⟩

/-- Settles O40: neither X nor Y is A, the one 8-bit register the core writes. -/
theorem indexRegistersChangeOnlyByTheHost : Obligations.IndexRegistersChangeOnlyByTheHost :=
  fun _ _ h => ⟨step_read8_ne (r := .x) h (by decide), step_read8_ne (r := .y) h (by decide)⟩

/-! ### The five inert flags -/

/-- A load writes no flag but Z and N (spec/41_load_accumulator.md R120). -/
theorem loaded_get_flag (v : Byte) (s : State) {f : FlagName} (hz : f ≠ .z) (hn : f ≠ .n) :
    (loaded v s).flags.get f = s.flags.get f := by
  cases f with
  | z => exact absurd rfl hz
  | n => exact absurd rfl hn
  | _ => rfl

/-- The core's moves write no flag but Z and N (R29 to R33). -/
theorem CoreMove.get_flag_eq {o : Opcodes} {s t : State} (h : CoreMove o s t) {f : FlagName} (hz : f ≠ .z)
    (hn : f ≠ .n) : t.flags.get f = s.flags.get f := by
  cases h with
  | finish hc => rw [endRun_flags]
  | load => exact loaded_get_flag _ _ hz hn
  | jsr => rfl
  | _ => rw [takeFault_flags]; rfl

/-- The host changes a flag by Reset, to 0, and by writing it. -/
theorem applyHost_get_flag_ne {act : HostAction} {s : State} {f : FlagName}
    (h : (applyHost act s).flags.get f ≠ s.flags.get f) :
    (act = .reset ∧ (applyHost act s).flags.get f = false) ∨ ∃ v, act = .writeFlag f v := by
  cases act with
  | reset => exact .inl ⟨rfl, by cases f <;> rfl⟩
  | writeFlag g v =>
    by_cases hg : f = g
    · exact .inr ⟨v, hg ▸ rfl⟩
    · exact absurd ((Flags.get_set ..).trans (if_neg hg)) h
  | write8 r v => cases r <;> exact absurd rfl h
  | write16 r v => cases r <;> exact absurd rfl h
  | _ => exact absurd rfl h

/-- The end of a run carries the flags along unread (spec/43_execute_loop.md R155). -/
theorem endRun_with_flags (s : State) (g : Flags) :
    endRun { s with flags := g } = { endRun s with flags := g } := by
  cases h : usedFits s
  · have h' : usedFits { s with flags := g } = false := h
    simp [endRun, h, h']
  · have h' : usedFits { s with flags := g } = true := h
    simp [endRun, h, h']

/-- Fault entry carries the flags along unread (spec/60_exceptions.md R174). -/
theorem takeFault_with_flags (r : Raise) (s : State) (g : Flags) :
    takeFault r { s with flags := g } = { takeFault r s with flags := g } :=
  endRun_with_flags { s with fault := r.code, faultInfo := r.info } g

/-- A load carries a flag that it does not write along unread. -/
theorem loaded_set_flag (v : Byte) (s : State) {f : FlagName} (b : Bool) (hz : f ≠ .z) (hn : f ≠ .n) :
    loaded v { s with flags := s.flags.set f b } =
      { loaded v s with flags := (loaded v s).flags.set f b } := by
  cases f with
  | z => exact absurd rfl hz
  | n => exact absurd rfl hn
  | _ => rfl

/-- With another value of an inert flag the core makes the same move, but for that flag. -/
theorem CoreMove.set_flag {o : Opcodes} {s t : State} (h : CoreMove o s t) {f : FlagName} (b : Bool) (hz : f ≠ .z)
    (hn : f ≠ .n) :
    CoreMove o { s with flags := s.flags.set f b } { t with flags := t.flags.set f b } := by
  cases h with
  | finish hc =>
    have e := endRun_with_flags s (s.flags.set f b)
    rw [endRun_flags, ← e]
    exact .finish hc
  | unassigned hc hb =>
    rw [takeFault_flags, ← takeFault_with_flags]
    exact .unassigned hc hb
  | load i rest hc hd hi ha =>
    rw [← loaded_set_flag _ _ _ hz hn]
    exact .load i rest hc hd hi ha
  | loadRaised i rest a hc hd hi ha =>
    rw [takeFault_flags, ← takeFault_with_flags]
    exact .loadRaised i rest a hc hd hi ha
  | jsr target rest hc hd hs => exact .jsr target rest hc hd hs
  | jsrRaised target rest hc hd hs =>
    rw [takeFault_flags, ← takeFault_with_flags]
    exact .jsrRaised target rest hc hd hs

/-- Settles O41: the core neither writes such a flag nor takes another move by its value. -/
theorem fiveFlagsAreInert : Obligations.FiveFlagsAreInert := by
  intro s f hz hn
  constructor
  · intro t h hne
    obtain ⟨hidle, act, rest, hq, rfl, hact⟩ := step_changes_by_host (item := fun u => u.flags.get f) h hne
      (fun _ => rfl) (fun _ hu => hu.get_flag_eq hz hn)
    refine ⟨hidle, rest, ?_⟩
    rcases applyHost_get_flag_ne hact with ⟨rfl, hfalse⟩ | ⟨v, rfl⟩
    · exact .inl ⟨hq, hfalse⟩
    · exact .inr ⟨v, hq⟩
  · intro v hr
    obtain ⟨t, hmove⟩ := exists_coreMove Opcodes.standard s
    exact ⟨t, (step_running hr).trans hmove.runStepWith_eq,
      (step_running (by exact hr)).trans (hmove.set_flag v hz hn).runStepWith_eq⟩

/-! ### Memory -/

/-- A move of the core changes what a cell reads as only as a JSR, at SP or the address after it
(spec/42_control_transfer.md R140). -/
theorem CoreMove.read_ne {o : Opcodes} {s t : State} (h : CoreMove o s t) (hm : s.mem.wf = true) {c : Nat}
    (hne : t.mem.read c ≠ s.mem.read c) :
    s.mem.read s.pc.toNat = o.jsr ∧ (c = s.sp.toNat ∨ c = s.sp.toNat + 1) := by
  cases h with
  | finish hc => exact absurd (by rw [endRun_mem]) hne
  | unassigned hc hb => exact absurd (by rw [takeFault_mem]; rfl) hne
  | load => exact absurd rfl hne
  | loadRaised => exact absurd (by rw [takeFault_mem]; rfl) hne
  | jsr target rest hc hd hs =>
    refine ⟨(Opcodes.code_of_lookup (lookup_of_decoded hd)).symm, ?_⟩
    by_contra hc'
    rw [not_or] at hc'
    rw [Memory.read_write _ _ _ (Memory.wf_write _ hm (addr_lt _)), if_neg (Ne.symm hc'.2),
      Memory.read_write _ _ _ hm, if_neg (Ne.symm hc'.1)] at hne
    exact hne rfl
  | jsrRaised target rest hc hd hs =>
    refine ⟨(Opcodes.code_of_lookup (lookup_of_decoded hd)).symm, .inl ?_⟩
    by_contra hc'
    have htop : 0xFFFF ≠ c := fun e => hc' (by rw [hs, ← e]; rfl)
    rw [takeFault_mem, Memory.read_write _ _ _ hm, if_neg htop] at hne
    exact hne rfl

/-- The host changes a cell by Reset and by writing it (spec/00_scope.md R9). -/
theorem applyHost_read_ne {act : HostAction} {s : State} (hm : s.mem.wf = true) {c : Nat}
    (h : (applyHost act s).mem.read c ≠ s.mem.read c) :
    act = .reset ∨ ∃ addr v, act = .writeMem addr v ∧ c = addr.toNat := by
  cases act with
  | reset => exact .inl rfl
  | writeMem addr v =>
    refine .inr ⟨addr, v, rfl, ?_⟩
    by_contra hc
    exact h ((Memory.read_write _ _ _ hm).trans (if_neg (Ne.symm hc)))
  | write8 r v => cases r <;> exact absurd rfl h
  | write16 r v => cases r <;> exact absurd rfl h
  | _ => exact absurd rfl h

/-- Settles O44: by who makes the step, the host's action or the core's move. -/
theorem memoryChangesOnlyByItsWriters : Obligations.MemoryChangesOnlyByItsWriters := by
  intro s t c hm h hne
  rcases step_cases h with ⟨hr, rfl | ⟨act, rest, hq, rfl⟩⟩ | ⟨hr, hmove⟩
  · exact absurd rfl hne
  · refine .inl ⟨hr, rest, ?_⟩
    rcases applyHost_read_ne (s := { s with hostQueue := rest }) hm hne with rfl | ⟨addr, v, rfl, hc⟩
    · exact .inl hq
    · exact .inr ⟨addr, v, hq, hc⟩
  · exact .inr ⟨hr, hmove.read_ne hm hne⟩

/-! ### SP and PC -/

/-- Settles O45: a JSR with room for its word is the only move that writes SP. -/
theorem stackPointerGrowsByTwoPerJsr : Obligations.StackPointerGrowsByTwoPerJsr := by
  intro o s t h
  cases runStepWith_eq_next_iff.1 h with
  | finish hc => exact .inl (endRun_sp s)
  | load => exact .inl rfl
  | jsr target rest hc hd hs => exact .inr ⟨rfl, hs, lookup_of_decoded hd⟩
  | _ => exact .inl (takeFault_sp ..)

/-- The PC a move leaves where the bytes at PC decode (R43). -/
theorem CoreMove.pc_of_decoded {o : Opcodes} {s t : State} (h : CoreMove o s t) (hc : 0 < s.cyc.toInt) {i : Instr}
    {rest : List Byte} (hd : decodeWith o s.bytesAtPC = .ok (i, rest)) :
    ((∀ target, i ≠ .jsr target) → t.pc = s.pc + BitVec.ofNat 16 i.length) ∧
    (∀ target, i = .jsr target → s.sp ≠ 0xFFFF#16 → t.pc = target) ∧
    (∀ target, i = .jsr target → s.sp = 0xFFFF#16 → t.pc = s.pc + 3#16) := by
  cases h with
  | finish hc' => omega
  | unassigned _ hb =>
    have := lookup_of_decoded hd
    rw [Opcodes.lookup_eq_none.2 hb] at this
    cases this
  | load j _ _ hd' hj _ =>
    cases hd.symm.trans hd'
    exact ⟨fun _ => rfl, fun _ e => absurd (e ▸ rfl) hj, fun _ e => absurd (e ▸ rfl) hj⟩
  | loadRaised j _ a _ hd' hj _ =>
    cases hd.symm.trans hd'
    exact ⟨fun _ => takeFault_pc .., fun _ e => absurd (e ▸ rfl) hj, fun _ e => absurd (e ▸ rfl) hj⟩
  | jsr target _ _ hd' hs =>
    cases hd.symm.trans hd'
    exact ⟨fun hn => absurd rfl (hn target), fun _ e _ => (Instr.jsr.inj e), fun _ _ hs' => absurd hs' hs⟩
  | jsrRaised target _ _ hd' hs =>
    cases hd.symm.trans hd'
    exact ⟨fun hn => absurd rfl (hn target), fun _ _ hs' => absurd hs hs', fun _ _ _ => takeFault_pc ..⟩

/-- Settles O14: at bytes that decode and at an unassigned one. -/
theorem pcAdvancesByTheTable : Obligations.PcAdvancesByTheTable := by
  intro o s _ hc
  constructor
  · intro i rest hd
    obtain ⟨t, hmove⟩ := exists_coreMove o s
    exact ⟨t, hmove.runStepWith_eq, hmove.pc_of_decoded hc hd⟩
  · intro hb
    exact ⟨_, runStepWith_unassigned hc hb, takeFault_pc ..⟩

end Sys2Proof.Machine
end

section
/-! What execution does not read: the report of a run (spec/10_state.md R40) and the old accumulator (R120). -/

namespace Sys2Proof.Machine

/-- The two states differ at most in REQ, USED, FAULT, FAULT_INFO and the model's free-value index. -/
def State.AlikeButReport (s u : State) : Prop :=
  u = { s with req := u.req, used := u.used, fault := u.fault, faultInfo := u.faultInfo, freeIndex := u.freeIndex }

/-- The end of a run reads and writes the report, and ends the run, only (spec/43_execute_loop.md R155). -/
theorem State.AlikeButReport.endRun {s u : State} (h : s.AlikeButReport u) :
    (endRun s).AlikeButReport (Machine.endRun u) := by
  rw [endRun_eq s, endRun_eq u, h]
  rfl

/-- So does fault entry (spec/60_exceptions.md R174). -/
theorem State.AlikeButReport.takeFault {s u : State} (r : Raise) (h : s.AlikeButReport u) :
    (takeFault r s).AlikeButReport (Machine.takeFault r u) :=
  State.AlikeButReport.endRun (by rw [h]; rfl)

/-- With another report the core makes the same move, but for the report. -/
theorem CoreMove.with_report {o : Opcodes} {s t : State} (h : CoreMove o s t) (req used : Cycles) (fault : FaultCode)
    (info : FaultInfo) :
    ∃ u, CoreMove o { s with req := req, used := used, fault := fault, faultInfo := info } u ∧ t.AlikeButReport u := by
  cases h with
  | finish hc => exact ⟨_, .finish hc, .endRun rfl⟩
  | unassigned hc hb => exact ⟨_, .unassigned hc hb, .takeFault _ rfl⟩
  | load i rest hc hd hi ha => exact ⟨_, .load i rest hc hd hi ha, rfl⟩
  | loadRaised i rest a hc hd hi ha => exact ⟨_, .loadRaised i rest a hc hd hi ha, .takeFault _ rfl⟩
  | jsr target rest hc hd hs => exact ⟨_, .jsr target rest hc hd hs, rfl⟩
  | jsrRaised target rest hc hd hs => exact ⟨_, .jsrRaised target rest hc hd hs, .takeFault _ rfl⟩

/-- Settles O42: the same move is made whatever the report holds. -/
theorem executionDoesNotReadTheReport : Obligations.ExecutionDoesNotReadTheReport := by
  intro s req used fault info hr
  obtain ⟨t, hmove⟩ := exists_coreMove Opcodes.standard s
  obtain ⟨u, hmove', halike⟩ := hmove.with_report req used fault info
  exact ⟨t, u, (step_running hr).trans hmove.runStepWith_eq,
    (step_running (by exact hr)).trans hmove'.runStepWith_eq, halike⟩

/-- Settles O43: the byte loaded and the charge do not depend on A, and the load overwrites it. -/
theorem oldAccumulatorIsDiscardedUnread : Obligations.OldAccumulatorIsDiscardedUnread :=
  fun _ s v hi _ ha => ⟨_, exec_load_ok hi ha, exec_load_ok (s := { s with a := v }) hi ha⟩

end Sys2Proof.Machine
end

section
/-! Memory as the machine reaches it (spec/20_memory.md): the raw accesses, what a stored word reads as, and a Running
core that keeps to itself (R52, R53, R62, R63). -/

namespace Sys2Proof.Machine

/-! ### Read after write, the same cell and another one -/

theorem Memory.read_write_same {m : Memory} (h : m.wf = true) (a : Nat) (v : Byte) : (m.write a v).read a = v := by
  rw [Memory.read_write _ _ _ h, if_pos rfl]

theorem Memory.read_write_of_ne {m : Memory} (h : m.wf = true) {a c : Nat} (v : Byte) (hc : c ≠ a) :
    (m.write a v).read c = m.read c := by
  rw [Memory.read_write _ _ _ h, if_neg hc.symm]

/-! ### The raw accesses (R52, R53) -/

theorem memRead_ok {a : Nat} (s : State) (h : a < Config.memSize) : memRead a s = .ok (s.mem.read a) s :=
  if_pos h

theorem memRead_raised {a : Nat} (s : State) (h : ¬ a < Config.memSize) :
    memRead a s = .raised (.addressOutOfRange (BitVec.ofNat 17 a)) s :=
  if_neg h

theorem memWrite_ok {a : Nat} (v : Byte) (s : State) (h : a < Config.memSize) :
    memWrite a v s = .ok () { s with mem := s.mem.write a v } :=
  if_pos h

theorem memWrite_raised {a : Nat} (v : Byte) (s : State) (h : ¬ a < Config.memSize) :
    memWrite a v s = .raised (.addressOutOfRange (BitVec.ofNat 17 a)) s :=
  if_neg h

/-- Settles O19: an address exists or not, and a write is known by what the cells read as after it. -/
theorem rawAccessTouchesOneCell : Obligations.RawAccessTouchesOneCell := by
  intro s a v hm
  constructor
  · intro ha
    have hlt : a < Config.memSize := Nat.lt_succ_of_le ha
    refine ⟨memRead_ok s hlt, { s with mem := s.mem.write a v }, memWrite_ok v s hlt, rfl,
      Memory.wf_write v hm hlt, ?_, fun c hc => Memory.read_write_of_ne hm v hc⟩
    rw [memRead_ok _ hlt, Memory.read_write_same hm]
  · intro ha
    have hge : ¬ a < Config.memSize := not_lt_memSize.2 ha
    exact ⟨memRead_raised s hge, memWrite_raised v s hge⟩

/-! ### The Running core and the host's queue (R63) -/

/-- The end of a run carries the queue along unread (spec/43_execute_loop.md R155). -/
theorem endRun_with_hostQueue (s : State) (q : List HostAction) :
    endRun { s with hostQueue := q } = { endRun s with hostQueue := q } := by
  have hfits : usedFits { s with hostQueue := q } = usedFits s := rfl
  unfold endRun
  rw [hfits]
  split <;> rfl

/-- So does fault entry (spec/60_exceptions.md R174). -/
theorem takeFault_with_hostQueue (r : Raise) (s : State) (q : List HostAction) :
    takeFault r { s with hostQueue := q } = { takeFault r s with hostQueue := q } :=
  endRun_with_hostQueue { s with fault := r.code, faultInfo := r.info } q

/-- No move of the core changes the queue. -/
theorem CoreMove.hostQueue_eq {o : Opcodes} {s t : State} (h : CoreMove o s t) : t.hostQueue = s.hostQueue := by
  cases h with
  | finish hc => exact endRun_hostQueue s
  | load => rfl
  | jsr => rfl
  | _ => exact takeFault_hostQueue ..

/-- With another queue the core makes the same move, but for the queue. -/
theorem CoreMove.with_hostQueue {o : Opcodes} {s t : State} (h : CoreMove o s t) (q : List HostAction) :
    CoreMove o { s with hostQueue := q } { t with hostQueue := q } := by
  cases h with
  | finish hc => exact endRun_with_hostQueue s q ▸ .finish hc
  | unassigned hc hb => exact takeFault_with_hostQueue _ _ q ▸ .unassigned hc hb
  | load i rest hc hd hi ha => exact .load i rest hc hd hi ha
  | loadRaised i rest a hc hd hi ha => exact takeFault_with_hostQueue _ _ q ▸ .loadRaised i rest a hc hd hi ha
  | jsr target rest hc hd hs => exact .jsr target rest hc hd hs
  | jsrRaised target rest hc hd hs => exact takeFault_with_hostQueue _ _ q ▸ .jsrRaised target rest hc hd hs

/-- Settles O5: the core's move neither changes the queue nor depends on it. -/
theorem runningCoreIgnoresTheHost : Obligations.RunningCoreIgnoresTheHost := by
  intro s q hr
  obtain ⟨t, hmove⟩ := exists_coreMove Opcodes.standard s
  exact ⟨t, (step_running hr).trans hmove.runStepWith_eq, hmove.hostQueue_eq,
    (step_running (by exact hr)).trans (hmove.with_hostQueue q).runStepWith_eq⟩

/-! ### A fetch of what was just stored (R62, R209) -/

/-- Below 0xFFFF the next address is the exact successor. -/
theorem addr_succ_toNat {a : Addr} (h : a ≠ 0xFFFF#16) : (a + 1#16).toNat = a.toNat + 1 := by
  bv_omega

/-- A word stored at `a` and `a + 1` reads back (spec/40_access_primitives.md R104). -/
theorem Memory.read_write_word {m : Memory} (h : m.wf = true) (a : Addr) (lo hi : Byte) :
    ((m.write a.toNat lo).write (a.toNat + 1) hi).read a.toNat = lo ∧
    ((m.write a.toNat lo).write (a.toNat + 1) hi).read (a.toNat + 1) = hi := by
  have hlo : (m.write a.toNat lo).wf = true := Memory.wf_write lo h (addr_lt a)
  exact ⟨(Memory.read_write_of_ne hlo hi (Nat.ne_of_lt (Nat.lt_succ_self _))).trans (Memory.read_write_same h ..),
    Memory.read_write_same hlo ..⟩

/-- Settles O37: JSR leaves PC at the old SP, where it stored its word. -/
theorem fetchSeesTheStackWrite : Obligations.FetchSeesTheStackWrite := by
  intro o s rest hm _ hc hd hs
  refine ⟨_, (CoreMove.jsr s.sp rest hc hd hs).runStepWith_eq, rfl, ?_⟩
  obtain ⟨hlo, hhi⟩ := Memory.read_write_word hm s.sp (lo8 (s.pc + 2#16)) (hi8 (s.pc + 2#16))
  simp only [State.bytesAtPC, addr_succ_toNat hs, hlo, hhi, List.take_succ_cons, List.take_zero, List.map_cons,
    List.map_nil, toNat_lo8, toNat_hi8]

end Sys2Proof.Machine
end

section
/-! Decoding and encoding (spec/30_encoding.md): what decodes, said once over every assignment of the opcode parameters
(R85), then which bytes do not. -/

namespace Sys2Proof

/-! ### The operand a form says its instructions have (R81, R82) -/

theorem Form.form_operandBytes_of_byte {f : Form} {mk : Byte → Instr} (h : f.operand = .byte mk) (b : Byte) :
    (mk b).form = f ∧ (mk b).operandBytes = [b] := by
  cases f <;> cases h <;> exact ⟨rfl, rfl⟩

theorem Form.form_operandBytes_of_word {f : Form} {mk : Addr → Instr} (h : f.operand = .word mk) (v : Addr) :
    (mk v).form = f ∧ (mk v).operandBytes = [lo8 v, hi8 v] := by
  cases f <;> cases h <;> exact ⟨rfl, rfl⟩

/-- An instruction is made from one operand byte or one operand word, in the way its form says. -/
theorem Instr.operand_cases (i : Instr) :
    (∃ mk b, i.form.operand = .byte mk ∧ i = mk b) ∨ (∃ mk v, i.form.operand = .word mk ∧ i = mk v) := by
  cases i with
  | ldaImm b | ldaZp b | ldaZpX b | ldaIndX b | ldaIndY b => exact .inl ⟨_, b, rfl, rfl⟩
  | ldaAbs v | ldaAbsX v | ldaAbsY v | jsr v => exact .inr ⟨_, v, rfl, rfl⟩

/-! ### What decodes -/

/-- Behind an assigned opcode byte, what decodes is exactly the operand bytes of an instruction of that form, with
anything after them. -/
theorem decodeWith_cons_eq_ok_iff {o : Opcodes} {op : Byte} {f : Form} (hl : o.lookup op = some f)
    {bytes rest : List Byte} {i : Instr} :
    decodeWith o (op :: bytes) = .ok (i, rest) ↔ i.form = f ∧ bytes = i.operandBytes ++ rest := by
  constructor
  · intro h
    cases hf : f.operand with
    | byte mk =>
      match bytes with
      | [] => simp [decodeWith, hl, hf] at h
      | b :: _ =>
        simp only [decodeWith, hl, hf, Except.ok.injEq, Prod.mk.injEq] at h
        obtain ⟨rfl, rfl⟩ := h
        simp [Form.form_operandBytes_of_byte hf]
    | word mk =>
      match bytes with
      | [] | [_] => simp [decodeWith, hl, hf] at h
      | lo :: hi :: _ =>
        simp only [decodeWith, hl, hf, Except.ok.injEq, Prod.mk.injEq] at h
        obtain ⟨rfl, rfl⟩ := h
        simp [Form.form_operandBytes_of_word hf]
  · rintro ⟨rfl, rfl⟩
    rcases i.operand_cases with ⟨mk, b, hf, hi⟩ | ⟨mk, v, hf, hi⟩
    · have hbytes : i.operandBytes = [b] := hi ▸ (Form.form_operandBytes_of_byte hf b).2
      simp [decodeWith, hl, hf, hbytes, ← hi]
    · have hbytes : i.operandBytes = [lo8 v, hi8 v] := hi ▸ (Form.form_operandBytes_of_word hf v).2
      simp [decodeWith, hl, hf, hbytes, ← hi]

/-- An unassigned opcode byte is the error, whatever follows it (R88). -/
theorem decodeWith_of_lookup_none {o : Opcodes} {op : Byte} (hl : o.lookup op = none) (rest : List Byte) :
    decodeWith o (op :: rest) = .error (.unassigned op) := by
  simp [decodeWith, hl]

/-- Behind an assigned opcode byte the one error is a missing operand byte. -/
theorem decodeWith_of_lookup_some {o : Opcodes} {op : Byte} {f : Form} (hl : o.lookup op = some f) (rest : List Byte) :
    (∃ r, decodeWith o (op :: rest) = .ok r) ∨ decodeWith o (op :: rest) = .error (.missingOperand f) := by
  simp only [decodeWith, hl]
  split <;> simp

/-- Settles O46: of R85 only that the nine values are distinct is used, so that the opcode byte selects the form. -/
theorem decodeOfEncode : Obligations.DecodeOfEncode := by
  intro o i rest ho _
  have hdistinct : o.distinct = true := by
    simp only [Opcodes.wellFormed, Bool.and_eq_true] at ho
    obtain ⟨⟨hdistinct, _⟩, _⟩ := ho
    exact hdistinct
  exact (decodeWith_cons_eq_ok_iff (Opcodes.lookup_code hdistinct i.form)).2 ⟨rfl, rfl⟩

/-- Settles O47: the first byte selects a form, so it is that form's opcode byte, and what follows it is the operand. -/
theorem encodeOfDecode : Obligations.EncodeOfDecode := by
  intro o bytes rest i h
  match bytes with
  | [] => cases h
  | op :: tail =>
    cases hl : o.lookup op with
    | none =>
      rw [decodeWith_of_lookup_none hl] at h
      cases h
    | some f =>
      obtain ⟨rfl, rfl⟩ := (decodeWith_cons_eq_ok_iff hl).1 h
      rw [encodeWith, Opcodes.code_of_lookup hl, List.cons_append]

/-- Settles O48: the lookup finds no form exactly for the other bytes, and behind a form that was found the error is
another one. -/
theorem exactlyTheOtherBytesAreUnassigned : Obligations.ExactlyTheOtherBytesAreUnassigned := by
  intro o op rest
  rw [← Opcodes.lookup_eq_none]
  constructor
  · exact fun hl => decodeWith_of_lookup_none hl rest
  · intro h
    cases hl : o.lookup op with
    | none => rfl
    | some f => rcases decodeWith_of_lookup_some hl rest with ⟨_, e⟩ | e <;> rw [e] at h <;> cases h

/-! ### The default assignment (R84) -/

/-- Settles O49: the decoder run on each of the words. -/
theorem wordsWrittenOutDecode : Obligations.WordsWrittenOutDecode :=
  ⟨rfl, rfl, rfl, rfl, rfl, rfl⟩

/-- Settles O50: the nine bytes compared with each other, with 0xA9 and with 0xFF. -/
theorem defaultOpcodesMeetTheConstraints : Obligations.DefaultOpcodesMeetTheConstraints := by
  unfold Obligations.DefaultOpcodesMeetTheConstraints
  decide

end Sys2Proof
end

section
/-! The access primitives (spec/40_access_primitives.md R100 to R106, R110), each at every address or operand. -/

namespace Sys2Proof.Machine

/-! ### The word store (R104) -/

/-- A word stored at `a` and `a + 1` leaves every other cell as it was. -/
theorem Memory.read_write_word_of_ne {m : Memory} (h : m.wf = true) (a : Addr) (lo hi : Byte) {c : Nat}
    (hlo : c ≠ a.toNat) (hhi : c ≠ a.toNat + 1) :
    ((m.write a.toNat lo).write (a.toNat + 1) hi).read c = m.read c :=
  (Memory.read_write_of_ne (Memory.wf_write lo h (addr_lt a)) hi hhi).trans (Memory.read_write_of_ne h lo hlo)

/-- Settles O18: the store's two writes, or its one write at 0xFFFF, known by what the cells read as after them. -/
theorem writeWordStoresLowByteFirst : Obligations.WriteWordStoresLowByteFirst := by
  intro s v a hm
  constructor
  · intro ha
    obtain ⟨hlo, hhi⟩ := Memory.read_write_word hm a (lo8 v) (hi8 v)
    refine ⟨_, writeWord_ok v s ha, rfl, ?_, ?_, fun c => Memory.read_write_word_of_ne hm a _ _⟩
    · rw [charge_mem, hlo, toNat_lo8]
    · rw [charge_mem, hhi, toNat_hi8]
  · rintro rfl
    refine ⟨_, writeWord_top v s, rfl, ?_, fun c => Memory.read_write_of_ne hm _⟩
    rw [Memory.read_write_same hm, toNat_lo8]

/-! ### The page-cross tests (R106, R110) -/

/-- Settles O22: the test is the carry of the low-byte addition, which is all that can change the high byte, and which
a sum above 0xFFFF has. -/
theorem pageCrossIsTheCarryOfTheLowByte : Obligations.PageCrossIsTheCarryOfTheLowByte := by
  intro base idx
  have hcarry : pageCross base (base.toNat + idx.toNat) = true ↔ 256 ≤ base.toNat % 256 + idx.toNat :=
    pageCross_iff base idx
  have hbase := base.isLt
  have hidx := idx.isLt
  refine ⟨hcarry.trans ?_, hcarry, fun habove => hcarry.2 ?_⟩
  · omega
  · omega

/-- The recorded threshold test charges for the one index 0xFF, whatever the base (R110). -/
theorem pageCrossBy_thresholdFF_iff (base : Addr) (idx : Byte) :
    pageCrossBy .thresholdFF base (base.toNat + idx.toNat) = true ↔ idx = 0xFF#8 := by
  rw [pageCrossBy, Nat.add_sub_cancel_left, decide_eq_true_iff]
  bv_omega

/-- Settles O23: the threshold test in general, and both tests run on the operands the rule names. -/
theorem thresholdPolicyIsNotThisHardware : Obligations.ThresholdPolicyIsNotThisHardware :=
  ⟨pageCrossBy_thresholdFF_iff, rfl, rfl, rfl, rfl, rfl, rfl⟩

/-! ### Fetches and reads (R100 to R103) -/

/-- Settles O16: FetchWord is one fetch of two bytes. -/
theorem fetchReadsAtPcAndAdvances : Obligations.FetchReadsAtPcAndAdvances := by
  intro s
  refine ⟨fetchByte_eq s, fun hpc => ?_, ?_, ?_⟩
  · rw [fetchByte_snd, charge_pc, hpc]
    rfl
  · rw [fetchWord_eq, toNat_wordOf]
  · rw [fetchWord_eq]
    rfl

/-- ReadWord at 0xFFFF: the low byte is read and charged, the high byte's read raises (R103). -/
theorem readWord_top (s : State) :
    readWord 0xFFFF s = .raised (.addressOutOfRange 0x10000#17) (charge 1 s) := by
  rw [readWord, readByte_ok s (by decide), Access.ok_andThen, readByte_raised _ (by decide), Access.raised_andThen]

/-- ReadWord at an address that does not exist: no charge (R103). -/
theorem readWord_raised {a : Nat} (s : State) (h : ¬ a < Config.memSize) :
    readWord a s = .raised (.addressOutOfRange (BitVec.ofNat 17 a)) s := by
  rw [readWord, readByte_raised s h, Access.raised_andThen]

/-- Settles O17: each read by whether its bytes exist. -/
theorem readChargesOneCycleAByte : Obligations.ReadChargesOneCycleAByte := by
  intro s a
  refine ⟨fun ha => readByte_ok s (Nat.lt_succ_of_le ha), fun ha => readByte_raised s (not_lt_memSize.2 ha),
    fun ha => ⟨_, readWord_ok s (Nat.succ_lt_succ ha), toNat_wordOf ..⟩, ?_,
    fun ha => readWord_raised s (not_lt_memSize.2 ha)⟩
  rintro rfl
  exact readWord_top s

/-! ### The load flags (R105) -/

/-- UpdateLoadFlags leaves what a load of the byte already in A leaves. -/
theorem updateLoadFlags_eq_loaded (s : State) : updateLoadFlags s = loaded s.a s := by
  have h := loaded_charge s.a 0 s
  rwa [charge_zero] at h

/-- Settles O21: a byte with bit 7 set is not 0. -/
theorem loadFlagsFollowTheAccumulator : Obligations.LoadFlagsFollowTheAccumulator := by
  intro s
  have hz : (loaded s.a s).flags.z = true ↔ s.a.toNat = 0 := decide_eq_true_iff.trans BitVec.toNat_inj.symm
  have hn : (loaded s.a s).flags.n = true ↔ 0x80 ≤ s.a.toNat := decide_eq_true_iff
  refine ⟨_, updateLoadFlags_eq_loaded s, rfl, hz, hn, ?_⟩
  rw [hz, hn]
  omega

end Sys2Proof.Machine
end

section
/-! What an Idle machine of the invariant reports (spec/43_execute_loop.md R155 to R157): the invariant's clauses about
CYC and USED, read off, and the bounds on USED that follow. -/

namespace Sys2Proof.Machine

namespace State.Inv

variable {s : State} (hs : s.Inv)
include hs

/-- A positive budget is never overrun by more than 5 cycles (R157). -/
theorem cyc_range_of_req_pos (h : 0 < s.req.toInt) : -5 ≤ s.cyc.toInt ∧ s.cyc.toInt ≤ s.req.toInt := by
  simpa [State.counterInRange, h] using hs.counter

/-- A budget of zero or less is never drawn on (R156). -/
theorem cyc_eq_req_of_req_nonpos (h : s.req.toInt ≤ 0) : s.cyc = s.req := by
  simpa [State.counterInRange, not_lt.2 h] using hs.counter

/-- While Idle USED is the exact `REQ - CYC` where that fits (R155, spec/60_exceptions.md R174). -/
theorem used_toInt_of_idle (hr : s.run = .idle) (hf : usedFits s = true) :
    s.used.toInt = s.req.toInt - s.cyc.toInt := by
  have hrun := hs.run
  simp only [State.reportOfRun, hr, hf, Bool.not_true, Bool.false_or, Bool.and_eq_true, beq_iff_eq] at hrun
  obtain ⟨hused, _⟩ := hrun
  rw [hused, toInt_req_sub_cyc hf]

/-- A run that did not fail has used its budget up (R155, R159). -/
theorem cyc_nonpos_of_idle (hr : s.run = .idle) (hf : s.fault = .none) : s.cyc.toInt ≤ 0 := by
  have hrun := hs.run
  simp only [State.reportOfRun, hr, hf, bne_self_eq_false, Bool.false_or, Bool.and_eq_true, decide_eq_true_iff] at hrun
  obtain ⟨_, hcyc⟩ := hrun
  exact hcyc

/-- The report of a positive budget that lies at least 5 below the greatest one (R109, R155). -/
theorem used_range_of_req_pos (hr : s.run = .idle) (hpos : 0 < s.req.toInt) (hle : s.req.toInt ≤ 0x7FFFFFFA) :
    0 ≤ s.used.toInt ∧ s.used.toInt ≤ s.req.toInt + 5 ∧ (s.fault = .none → s.req.toInt ≤ s.used.toInt) := by
  obtain ⟨hlow, hhigh⟩ := hs.cyc_range_of_req_pos hpos
  have hused := hs.used_toInt_of_idle hr ((usedFits_iff s).2 (by omega))
  refine ⟨by omega, by omega, fun hf => ?_⟩
  have := hs.cyc_nonpos_of_idle hr hf
  omega

/-- The report of a budget of zero or less (R156). -/
theorem used_eq_zero_of_req_nonpos (hr : s.run = .idle) (h : s.req.toInt ≤ 0) : s.used = 0#32 := by
  have hcyc := hs.cyc_eq_req_of_req_nonpos h
  have hused := hs.used_toInt_of_idle hr ((usedFits_iff s).2 (by rw [hcyc]; omega))
  rw [hcyc, Int.sub_self] at hused
  exact BitVec.eq_of_toInt_eq hused

end State.Inv

/-- Settles O56: the step leaves a state of the invariant. -/
theorem reportedCyclesAreInRange : Obligations.ReportedCyclesAreInRange := by
  intro s t hs h hr
  have ht : t.Inv := invariantIsKeptByEveryStep s t hs h
  exact ⟨ht.used_range_of_req_pos hr, ht.used_eq_zero_of_req_nonpos hr⟩

end Sys2Proof.Machine
end

section
/-! LDA in its eight addressing modes (spec/41_load_accumulator.md R120 to R129): what a load answers from the state
before its fetches, completed or raised, then the three modes that index a 16-bit base, and what every load leaves
unchanged. -/

namespace Sys2Proof.Machine

/-! ### A load by the state before its fetches -/

/-- The table's total counts the fetches in (spec/43_execute_loop.md R161). -/
theorem length_le_cycleTotal (i : Instr) (s : State) : i.length ≤ cycleTotal i s := by
  cases i with
  | ldaImm | ldaZp | ldaZpX | ldaAbs | ldaIndX =>
    simp [cycleTotal, Instr.length, Instr.form, Form.format, Format.length]
  | ldaAbsX | ldaAbsY | ldaIndY | jsr =>
    simp only [cycleTotal, Instr.length, Instr.form, Form.format, Format.length]
    split <;> omega

/-- The fetches and the meaning's own charge: PC past the instruction, CYC less by the table's total. -/
theorem charge_meaningCharge_fetched (i : Instr) (s : State) :
    charge (meaningCharge i s) (s.fetched i.length) =
      { s with pc := s.pc + BitVec.ofNat 16 i.length, cyc := s.cyc - BitVec.ofNat 32 (cycleTotal i s) } := by
  have htotal : i.length + meaningCharge i s = cycleTotal i s := Nat.add_sub_of_le (length_le_cycleTotal i s)
  rw [← htotal, ← charge_fetched_cyc]
  rfl

/-- A load that raises nothing (R120). -/
theorem exec_load_fetched {i : Instr} {s : State} (hi : i.form ≠ .jsr) (ha : offendingAddress i s = none) :
    exec i (s.fetched i.length) = .next (loaded (loadValue i s)
      { s with pc := s.pc + BitVec.ofNat 16 i.length, cyc := s.cyc - BitVec.ofNat 32 (cycleTotal i s) }) := by
  rw [exec_load_ok hi (by exact ha), loadValue_fetched, meaningCharge_fetched, charge_meaningCharge_fetched]

/-- A load that raises (R120, spec/60_exceptions.md R173, R174). -/
theorem exec_load_fetched_raised {i : Instr} {s : State} {a : Nat} (hi : i.form ≠ .jsr)
    (ha : offendingAddress i s = some a) :
    ∃ t : State, exec i (s.fetched i.length) = .next t ∧
      t = { s with
            pc := s.pc + BitVec.ofNat 16 i.length, cyc := s.cyc - BitVec.ofNat 32 (cycleTotal i s), run := .idle,
            fault := .addressOutOfRange, faultInfo := .address (BitVec.ofNat 17 a), used := t.used,
            freeIndex := t.freeIndex } ∧
      UsedIsReported s t := by
  refine ⟨_, exec_load_raised hi (by exact ha), ?_, takeFault_usedIsReported _ rfl⟩
  rw [meaningCharge_fetched, charge_meaningCharge_fetched]
  exact takeFault_eq ..

/-! ### The modes that cannot raise (R121 to R124, R127) -/

/-- Settles O24: the operand byte itself, 2 cycles. -/
theorem ldaImmediateResult : Obligations.LdaImmediateResult :=
  fun _ imm => ⟨exec_load_fetched (i := .ldaImm imm) nofun rfl, rfl, rfl, rfl⟩

/-- Settles O25: every zero-page address exists. -/
theorem ldaZeroPageResult : Obligations.LdaZeroPageResult :=
  fun _ zp => ⟨exec_load_fetched (i := .ldaZp zp) nofun rfl, rfl, rfl, fun _ => rfl⟩

/-- Settles O26: the indexed address wraps within the zero page. -/
theorem ldaZeroPageXResult : Obligations.LdaZeroPageXResult :=
  fun _ zp => ⟨exec_load_fetched (i := .ldaZpX zp) nofun rfl, rfl, rfl, fun _ => rfl⟩

/-- Settles O27: every 16-bit address exists. -/
theorem ldaAbsoluteResult : Obligations.LdaAbsoluteResult :=
  fun _ addr => ⟨exec_load_fetched (i := .ldaAbs addr) nofun rfl, rfl, rfl, fun _ => rfl⟩

/-- Settles O30: the address is the word at the wrapped pointer, so it exists. -/
theorem ldaIndirectXResult : Obligations.LdaIndirectXResult :=
  fun _ zp => ⟨exec_load_fetched (i := .ldaIndX zp) nofun rfl, rfl, rfl, fun _ => rfl⟩

/-! ### The modes that index a 16-bit base (R125, R126, R128) -/

/-- The load `i` reads at the exact `base + idx`, in `n` cycles and one more where it crosses a page; above memory it
raises after `n`. -/
structure IndexedLoad (i : Instr) (s : State) (n base idx : Nat) : Prop where
  isLoad    : i.form ≠ .jsr
  value     : loadValue i s = s.mem.read (base + idx)
  offending : offendingAddress i s = if 0xFFFF < base + idx then some (base + idx) else none
  cycles    : cycleTotal i s = if (offendingAddress i s).isSome then n else n + crossCycle (base % 256) idx

theorem indexedLoad_ldaAbsX (addr : Addr) (s : State) : IndexedLoad (.ldaAbsX addr) s 4 addr.toNat s.x.toNat :=
  ⟨nofun, rfl, rfl, rfl⟩

theorem indexedLoad_ldaAbsY (addr : Addr) (s : State) : IndexedLoad (.ldaAbsY addr) s 4 addr.toNat s.y.toNat :=
  ⟨nofun, rfl, rfl, rfl⟩

/-- The low byte of the base is the first byte of the pointer (spec/40_access_primitives.md R103). -/
theorem pointerAt_mod (s : State) (p : Nat) : s.pointerAt p % 256 = (s.mem.read p).toNat := by
  have := (s.mem.read p).isLt
  rw [State.pointerAt]
  omega

theorem indexedLoad_ldaIndY (zp : Byte) (s : State) :
    IndexedLoad (.ldaIndY zp) s 5 (s.pointerAt zp.toNat) s.y.toNat :=
  ⟨nofun, rfl, rfl, by rw [pointerAt_mod]; rfl⟩

namespace IndexedLoad

variable {i : Instr} {s : State} {n base idx : Nat} (h : IndexedLoad i s n base idx)
include h

/-- Within memory the load completes. -/
theorem exec_within (hle : base + idx ≤ 0xFFFF) :
    exec i (s.fetched i.length) = .next (loaded (s.mem.read (base + idx))
      { s with
        pc := s.pc + BitVec.ofNat 16 i.length,
        cyc := s.cyc - BitVec.ofNat 32 (n + crossCycle (base % 256) idx) }) := by
  have hnone : offendingAddress i s = none := h.offending.trans (if_neg (not_lt.2 hle))
  have hcyc : cycleTotal i s = n + crossCycle (base % 256) idx := by rw [h.cycles, hnone]; rfl
  rw [exec_load_fetched h.isLoad hnone, h.value, hcyc]

theorem exec_no_cross (hle : base + idx ≤ 0xFFFF) (hlow : base % 256 + idx < 256) :
    exec i (s.fetched i.length) = .next (loaded (s.mem.read (base + idx))
      { s with pc := s.pc + BitVec.ofNat 16 i.length, cyc := s.cyc - BitVec.ofNat 32 n }) := by
  rw [h.exec_within hle, crossCycle, if_neg (not_le.2 hlow), Nat.add_zero]

theorem exec_cross (hle : base + idx ≤ 0xFFFF) (hcarry : 256 ≤ base % 256 + idx) :
    exec i (s.fetched i.length) = .next (loaded (s.mem.read (base + idx))
      { s with pc := s.pc + BitVec.ofNat 16 i.length, cyc := s.cyc - BitVec.ofNat 32 (n + 1) }) := by
  rw [h.exec_within hle, crossCycle, if_pos hcarry]

/-- Above memory the load raises. -/
theorem exec_above (hgt : 0xFFFF < base + idx) :
    ∃ t : State, exec i (s.fetched i.length) = .next t ∧
      t = { s with
            pc := s.pc + BitVec.ofNat 16 i.length, cyc := s.cyc - BitVec.ofNat 32 n, run := .idle,
            fault := .addressOutOfRange, faultInfo := .address (BitVec.ofNat 17 (base + idx)), used := t.used,
            freeIndex := t.freeIndex } ∧
      UsedIsReported s t := by
  have hsome : offendingAddress i s = some (base + idx) := h.offending.trans (if_pos hgt)
  have hcyc : cycleTotal i s = n := by rw [h.cycles, hsome]; rfl
  exact hcyc ▸ exec_load_fetched_raised h.isLoad hsome

end IndexedLoad

/-- Settles O28: an indexed load in 4 cycles, the base the operand and the index X. -/
theorem ldaAbsoluteXResult : Obligations.LdaAbsoluteXResult := by
  intro s addr
  have h := indexedLoad_ldaAbsX addr s
  exact ⟨h.exec_no_cross, h.exec_cross, h.exec_above, rfl, rfl, fun _ => rfl⟩

/-- Settles O29: an indexed load in 4 cycles, the base the operand and the index Y. -/
theorem ldaAbsoluteYResult : Obligations.LdaAbsoluteYResult := by
  intro s addr
  have h := indexedLoad_ldaAbsY addr s
  exact ⟨h.exec_no_cross, h.exec_cross, h.exec_above, rfl, rfl, fun _ => rfl⟩

/-- Settles O31: an indexed load in 5 cycles, the base the word at the pointer and the index Y. -/
theorem ldaIndirectYResult : Obligations.LdaIndirectYResult := by
  rintro s zp base rfl
  have h := indexedLoad_ldaIndY zp s
  exact ⟨h.exec_no_cross, h.exec_cross, h.exec_above, rfl, rfl, fun _ => rfl⟩

/-! ### Every mode: the flags and the frame (R120, R129) -/

/-- All a load can do: complete or raise. -/
theorem exec_load_cases {i : Instr} {s t : State} (hi : i.form ≠ .jsr) (h : exec i s = .next t) :
    (offendingAddress i s = none ∧ t = loaded (loadValue i s) (charge (meaningCharge i s) s)) ∨
    (∃ a, offendingAddress i s = some a ∧
      t = takeFault (.addressOutOfRange (BitVec.ofNat 17 a)) (charge (meaningCharge i s) s)) := by
  cases ha : offendingAddress i s with
  | none =>
    cases h.symm.trans (exec_load_ok hi ha)
    exact .inl ⟨rfl, rfl⟩
  | some a =>
    cases h.symm.trans (exec_load_raised hi ha)
    exact .inr ⟨a, rfl, rfl⟩

theorem loaded_z_iff (v : Byte) (s : State) : (loaded v s).flags.z = true ↔ (loaded v s).a.toNat = 0 :=
  decide_eq_true_iff.trans BitVec.toNat_inj.symm

theorem loaded_n_iff (v : Byte) (s : State) : (loaded v s).flags.n = true ↔ 0x80 ≤ (loaded v s).a.toNat :=
  decide_eq_true_iff

/-- The flags a load leaves, where Z and N are known. -/
theorem loaded_flags_eq {v : Byte} {s : State} {z n : Bool} (hz : z = true ↔ (loaded v s).a.toNat = 0)
    (hn : n = true ↔ 0x80 ≤ (loaded v s).a.toNat) : (loaded v s).flags = { s.flags with z := z, n := n } := by
  rw [Bool.eq_iff_iff.2 (hz.trans (loaded_z_iff v s).symm), Bool.eq_iff_iff.2 (hn.trans (loaded_n_iff v s).symm)]
  rfl

/-- Settles O33: the run goes on only where the load completed. -/
theorem loadFlagOutcomesInEveryMode : Obligations.LoadFlagOutcomesInEveryMode := by
  intro i s t hi _ h hrun
  rcases exec_load_cases hi h with ⟨_, rfl⟩ | ⟨a, _, rfl⟩
  · refine ⟨fun h0 => ?_, fun h1 h7F => ?_, fun h80 => ?_⟩ <;>
      exact loaded_flags_eq (by simp; omega) (by simp; omega)
  · cases (takeFault_run ..).symm.trans hrun

/-- Settles O34: a load that completes writes A, Z, N and CYC, one that raises CYC and the report. -/
theorem loadFrame : Obligations.LoadFrame := by
  intro i s t hi h
  rcases exec_load_cases hi h with ⟨hnone, rfl⟩ | ⟨a, hsome, rfl⟩
  · exact ⟨rfl, rfl, rfl, rfl, rfl, rfl, rfl, rfl, rfl, rfl, rfl, fun _ => rfl,
      .inl ⟨rfl, rfl, rfl, rfl, rfl, loaded_z_iff .., loaded_n_iff .., hnone⟩⟩
  · simp [hsome, Raise.code]

end Sys2Proof.Machine
end

section
/-! JSR (spec/42_control_transfer.md R140, R141): its result, its frame, and the word it leaves below SP. -/

namespace Sys2Proof.Machine

/-- Settles O32: by whether SP has room for the word; the two stores, or the one at 0xFFFF, are known by what the cells
read as after them. -/
theorem jsrResult : Obligations.JsrResult := by
  rintro s target ret rfl
  refine ⟨fun hs => ?_, fun hs => ?_, rfl, rfl, fun _ => rfl⟩
  · refine ⟨_, exec_jsr_fetched target hs, rfl, fun hm => ?_⟩
    obtain ⟨hlo, hhi⟩ := Memory.read_write_word hm s.sp (lo8 (s.pc + 2#16)) (hi8 (s.pc + 2#16))
    exact ⟨by rw [hlo, toNat_lo8], by rw [hhi, toNat_hi8], fun _ => Memory.read_write_word_of_ne hm _ _ _⟩
  · refine ⟨_, exec_jsr_fetched_top target hs, ?_, takeFault_usedIsReported _ rfl, fun hm => ?_⟩
    · rw [takeFault_mem]
      exact takeFault_eq ..
    · rw [takeFault_mem]
      exact ⟨by rw [Memory.read_write_same hm, toNat_lo8], fun c hc => Memory.read_write_of_ne hm _ hc⟩

/-- Settles O35: a JSR that completes writes memory, SP, PC and CYC, one that raises memory and the report. -/
theorem jsrFrame : Obligations.JsrFrame := by
  intro target s t hm h
  rcases exec_jsr_cases target s with ⟨hs, e⟩ | ⟨hs, e⟩
  · cases h.symm.trans e
    exact ⟨rfl, rfl, rfl, rfl, rfl, rfl, fun _ => Memory.read_write_word_of_ne hm _ _ _,
      fun _ => ⟨rfl, rfl, rfl, rfl, rfl⟩, fun htop => absurd htop hs⟩
  · cases h.symm.trans e
    refine ⟨takeFault_a .., takeFault_x .., takeFault_y .., takeFault_flags .., takeFault_req ..,
      takeFault_hostQueue .., fun c hc _ => ?_, fun hroom => absurd hs hroom, fun _ => ⟨takeFault_sp .., takeFault_pc ..⟩⟩
    rw [hs] at hc
    rw [takeFault_mem]
    exact Memory.read_write_of_ne hm _ hc

/-- A word stored low byte first at `a` reads back as the word at `a` and the next address. -/
theorem Memory.wordOf_read_write_word {m : Memory} (h : m.wf = true) {a : Addr} (ha : a ≠ 0xFFFF#16) (v : Addr) :
    wordOf (((m.write a.toNat (lo8 v)).write (a.toNat + 1) (hi8 v)).read (a + 1#16).toNat)
      (((m.write a.toNat (lo8 v)).write (a.toNat + 1) (hi8 v)).read a.toNat) = v := by
  obtain ⟨hlo, hhi⟩ := Memory.read_write_word h a (lo8 v) (hi8 v)
  rw [addr_succ_toNat ha, hlo, hhi, wordOf_hi8_lo8]

/-- Settles O36: below the new SP stands the word stored at the old one, and a JSR is 3 bytes long. -/
theorem returnAddressIsRecoverable : Obligations.ReturnAddressIsRecoverable := by
  intro o s target rest hm _ hc hd hs
  refine ⟨_, (CoreMove.jsr target rest hc hd hs).runStepWith_eq, ?_⟩
  have hhi : s.sp + 2#16 - 1#16 = s.sp + 1#16 := by bv_omega
  have hlo : s.sp + 2#16 - 2#16 = s.sp := BitVec.add_sub_cancel ..
  have hnext : s.pc + 2#16 + 1#16 = s.pc + 3#16 := BitVec.add_assoc ..
  rw [hhi, hlo, Memory.wordOf_read_write_word hm hs]
  exact ⟨rfl, hnext⟩

end Sys2Proof.Machine
end

section
/-! The Execute loop (spec/43_execute_loop.md R150 to R161): acceptance, the loop test, the charge of each instruction
step, and from these the end of every run. -/

namespace Sys2Proof.Machine

/-! ### Acceptance and the loop test (R150 to R152) -/

/-- Settles O3: acceptance is what an Idle core does with the command. -/
theorem executeLoadsTheBudgetAndStartsTheRun : Obligations.ExecuteLoadsTheBudgetAndStartsTheRun :=
  fun _ _ => ⟨fun hr => hostAct_of_idle hr _, fun hr => hostAct_of_running hr _⟩

theorem step_running_pos {s : State} (hr : s.run = .running) (hc : 0 < s.cyc.toInt) :
    step s = instrStep Opcodes.standard s :=
  (step_running hr).trans (runStepWith_pos hc)

theorem step_running_done {s : State} (hr : s.run = .running) (hc : s.cyc.toInt ≤ 0) : step s = .next (endRun s) :=
  (step_running hr).trans (runStepWith_done hc)

/-- Settles O7: the two outcomes of the loop test. -/
theorem loopTestDecidesOnTheCounterAlone : Obligations.LoopTestDecidesOnTheCounterAlone :=
  fun _ hr => ⟨step_running_pos hr, step_running_done hr⟩

/-- Settles O11: the machine's step is the core's move at the default assignment. -/
theorem stepRunsTheDecodedInstruction : Obligations.StepRunsTheDecodedInstruction := by
  intro o s i rest hr hc hd _
  have hexec : runStepWith o s = exec i (s.fetched i.length) := runStepWith_decoded hc hd
  refine ⟨hexec, ?_⟩
  rintro rfl
  exact (step_running hr).trans hexec

/-! ### The normal end (R155, R156) -/

/-- The end of a run reports USED exactly where it fits, and then takes no free value (R155). -/
theorem endRun_used_toInt {s : State} (hf : usedFits s = true) :
    (endRun s).used.toInt = s.req.toInt - s.cyc.toInt ∧ (endRun s).freeIndex = s.freeIndex := by
  rw [endRun_fits hf]
  exact ⟨toInt_req_sub_cyc hf, rfl⟩

/-- Settles O8: a normal end leaves a state of the invariant, Idle and with no failure, so its USED is in range. -/
theorem normalEndReportsTheCyclesUsed : Obligations.NormalEndReportsTheCyclesUsed := by
  intro s hr hc
  refine ⟨endRun s, step_running_done hr hc, endRun_eq s, fun hlow hhigh => ?_, fun hs hpos hle => ?_⟩
  · exact endRun_used_toInt ((usedFits_iff s).2 ⟨hlow, hhigh⟩)
  · obtain ⟨_, hnone, _, _⟩ := (inv_iff_of_running hr).1 hs
    have hfault : (endRun s).fault = .none := by rw [endRun_fault, hnone]
    have hend : (endRun s).Inv := (CoreMove.finish hc).inv hr hs
    obtain ⟨_, hover, hleast⟩ := hend.used_range_of_req_pos (endRun_run s) (by simpa using hpos) (by simpa using hle)
    rw [endRun_req] at hover hleast
    exact ⟨hleast hfault, hover, hfault⟩

/-- A run none of whose budget was spent reports 0 (R156). -/
theorem endRun_of_cyc_eq_req {s : State} (h : s.cyc = s.req) : endRun s = { s with used := 0#32, run := .idle } := by
  have hf : usedFits s = true := (usedFits_iff s).2 (by rw [h]; omega)
  rw [endRun_fits hf, h, BitVec.sub_self]

/-- Settles O9: the command is accepted, then the loop test ends the run with the budget untouched. -/
theorem budgetOfZeroOrLessRunsNothing : Obligations.BudgetOfZeroOrLessRunsNothing := by
  intro s budget rest hr hq hb
  have haccept := step_idle_cons hr hq
  have hend := step_running_done (acceptExecute_run budget { s with hostQueue := rest }) hb
  rw [runFor_succ haccept, applyHost, runFor_succ hend, runFor_zero, endRun_of_cyc_eq_req rfl, acceptExecute, ← hr]

/-! ### The charge of an instruction step (R160, R161) -/

theorem two_le_length (i : Instr) : 2 ≤ i.length := by
  unfold Instr.length
  cases i.form <;> decide

theorem two_le_cycleTotal (i : Instr) (s : State) : 2 ≤ cycleTotal i s :=
  (two_le_length i).trans (length_le_cycleTotal i s)

/-- The move at bytes that decode charges the table's total, whether the instruction completes or raises (R161). -/
theorem CoreMove.cyc_of_decoded {o : Opcodes} {s t : State} (h : CoreMove o s t) (hc : 0 < s.cyc.toInt) {i : Instr}
    {rest : List Byte} (hd : decodeWith o s.bytesAtPC = .ok (i, rest)) :
    t.cyc = s.cyc - BitVec.ofNat 32 (cycleTotal i s) := by
  cases h with
  | finish hc' => omega
  | unassigned _ hb =>
    have := lookup_of_decoded hd
    rw [Opcodes.lookup_eq_none.2 hb] at this
    cases this
  | load j _ _ hd' _ _ =>
    cases hd.symm.trans hd'
    exact congrArg State.cyc (charge_meaningCharge_fetched i s)
  | loadRaised j _ a _ hd' _ _ =>
    cases hd.symm.trans hd'
    rw [takeFault_cyc, charge_meaningCharge_fetched]
  | jsr target _ _ hd' hs =>
    cases hd.symm.trans hd'
    simp [cycleTotal, offendingAddress, hs]
  | jsrRaised target _ _ hd' hs =>
    cases hd.symm.trans hd'
    simp [cycleTotal, offendingAddress, hs, State.fetched]

/-- Settles O13: at bytes that decode and at an unassigned one. -/
theorem everyStepChargesItsTableCycles : Obligations.EveryStepChargesItsTableCycles := by
  intro o s _ hc
  constructor
  · intro i rest hd
    obtain ⟨t, hmove⟩ := exists_coreMove o s
    exact ⟨⟨t, hmove.runStepWith_eq, hmove.cyc_of_decoded hc hd⟩,
      fun _ => ⟨two_le_cycleTotal i s, cycleTotal_le_six i s⟩⟩
  · intro hb
    exact ⟨_, runStepWith_unassigned hc hb, takeFault_cyc ..⟩

/-! ### Runs (R157, R159) -/

/-- Settles O54: the invariant holds along the run. -/
theorem counterStaysInRangeAlongRuns : Obligations.CounterStaysInRangeAlongRuns := by
  intro s t k hs h
  have ht : t.Inv := runFor_keeps invariantIsKeptByEveryStep k hs h
  exact ⟨ht.cyc_range_of_req_pos, ht.cyc_eq_req_of_req_nonpos⟩

/-- A charge made with budget left does not wrap (spec/00_scope.md R12). -/
theorem toInt_sub_charge {c : Cycles} {n : Nat} (hc : 0 < c.toInt) (hn : n ≤ 6) :
    (c - BitVec.ofNat 32 n).toInt = c.toInt - n := by
  have := c.toInt_lt
  rw [BitVec.toInt_sub, BitVec.toInt_ofNat', Int.bmod_def, Int.bmod_def]
  omega

/-- A move at bytes that decode lowers CYC by 2 at least (R159). -/
theorem CoreMove.two_le_charged {o : Opcodes} {s t : State} (h : CoreMove o s t) (hc : 0 < s.cyc.toInt) {i : Instr}
    {rest : List Byte} (hd : decodeWith o s.bytesAtPC = .ok (i, rest)) : t.cyc.toInt + 2 ≤ s.cyc.toInt := by
  have hleast := two_le_cycleTotal i s
  rw [h.cyc_of_decoded hc hd, toInt_sub_charge hc (cycleTotal_le_six i s)]
  omega

/-- A move ends the run or leaves at least 2 cycles less: only an instruction that completes goes on (R159). -/
theorem CoreMove.idle_or_charged {o : Opcodes} {s t : State} (h : CoreMove o s t) (hr : s.run = .running) :
    t.run = .idle ∨ (t.run = .running ∧ t.cyc.toInt + 2 ≤ s.cyc.toInt) := by
  have hmove := h
  cases h with
  | finish => exact .inl (endRun_run _)
  | unassigned | loadRaised | jsrRaised => exact .inl (takeFault_run ..)
  | load i rest hc hd | jsr target rest hc hd => exact .inr ⟨hr, hmove.two_le_charged hc hd⟩

theorem RunEndsWithin.of_idle {s : State} (hr : s.run = .idle) (n : Nat) : RunEndsWithin n s :=
  ⟨0, s, Nat.zero_le n, runFor_zero s, hr⟩

theorem RunEndsWithin.of_step {s t : State} {n : Nat} (h : step s = .next t) (ht : RunEndsWithin n t) :
    RunEndsWithin (n + 1) s := by
  obtain ⟨k, u, hk, hu, hidle⟩ := ht
  exact ⟨k + 1, u, Nat.succ_le_succ hk, (runFor_succ h k).trans hu, hidle⟩

/-- A budget of at most `2 * n` is used up by `n` instruction steps, and the loop test then ends the run (R159). -/
theorem runEndsWithin_of_cyc_le {s : State} {n : Nat} (hr : s.run = .running) (hn : s.cyc.toInt ≤ 2 * n) :
    RunEndsWithin (n + 1) s := by
  induction n generalizing s with
  | zero => exact .of_step (step_running_done hr (by simpa using hn)) (.of_idle (endRun_run s) 0)
  | succ n ih =>
    obtain ⟨t, hmove⟩ := exists_coreMove Opcodes.standard s
    refine .of_step ((step_running hr).trans hmove.runStepWith_eq) ?_
    rcases hmove.idle_or_charged hr with hidle | ⟨hrun, hcharged⟩
    · exact .of_idle hidle _
    · exact ih hrun (by omega)

/-- Settles O55: twice the half rounded up is at least the budget. -/
theorem everyRunEnds : Obligations.EveryRunEnds :=
  fun _ hr => runEndsWithin_of_cyc_le hr (by omega)

end Sys2Proof.Machine
end

section
/-! Faults (spec/60_exceptions.md R170 to R184): which meanings raise, what a raise leaves, that neither failure stops the
machine, and the run of exactly one instruction. -/

namespace Sys2Proof.Machine

/-! ### Fault entry and the unassigned opcode (R171, R174) -/

/-- Settles O39: fault entry is the end of a run with the failure recorded. -/
theorem faultEntryRecordsAndEndsTheRun : Obligations.FaultEntryRecordsAndEndsTheRun := by
  intro s r
  refine ⟨takeFault_eq r s, fun hlow hhigh => ?_, fun _ _ => ⟨rfl, rfl⟩, fun _ => ⟨rfl, rfl⟩⟩
  exact endRun_used_toInt (s := { s with fault := r.code, faultInfo := r.info }) ((usedFits_iff _).2 ⟨hlow, hhigh⟩)

/-- Settles O10: the move is fault entry on the state with the one byte fetched. -/
theorem unassignedOpcodeEndsTheRun : Obligations.UnassignedOpcodeEndsTheRun := by
  intro o s hr hc hb
  have hmove := runStepWith_unassigned hc hb
  refine ⟨_, hmove, ?_, takeFault_eq .., takeFault_usedIsReported _ rfl⟩
  rintro rfl
  exact (step_running hr).trans hmove

/-! ### Which meanings raise (R173) -/

/-- An instruction to which the table gives no offending address goes on with the run. -/
theorem exec_of_offendingAddress_none {i : Instr} {s : State} (ha : offendingAddress i s = none) :
    ∃ t : State, exec i s = .next t ∧ t.run = s.run ∧ t.req = s.req ∧ t.fault = s.fault := by
  rcases exec_cases i s with ⟨_, _, e⟩ | ⟨a, _, hsome, _⟩ | ⟨target, _, _, _, e⟩ | ⟨target, _, hsome, _⟩
  · exact ⟨_, e, rfl, rfl, rfl⟩
  · cases ha.symm.trans hsome
  · exact ⟨_, e, rfl, rfl, rfl⟩
  · cases ha.symm.trans hsome

/-- One to which it gives an address ends in fault entry with that address. -/
theorem exec_of_offendingAddress_some {i : Instr} {s : State} {a : Nat} (ha : offendingAddress i s = some a) :
    ∃ u : State, exec i s = .next (takeFault (.addressOutOfRange (BitVec.ofNat 17 a)) u) := by
  rcases exec_cases i s with ⟨_, hnone, _⟩ | ⟨b, _, hb, e⟩ | ⟨target, _, hnone, _⟩ | ⟨target, _, htop, _, e⟩
  · cases ha.symm.trans hnone
  · cases ha.symm.trans hb
    exact ⟨_, e⟩
  · cases ha.symm.trans hnone
  · cases ha.symm.trans htop
    exact ⟨_, e⟩

/-- Settles O38: by whether the table gives an address. -/
theorem outOfRangeIsRaisedByTheTable : Obligations.OutOfRangeIsRaisedByTheTable := by
  intro i s hr
  cases ha : offendingAddress i s with
  | none =>
    obtain ⟨t, e, hrun, _, _⟩ := exec_of_offendingAddress_none ha
    exact ⟨t, e, by simp [hrun, hr], nofun⟩
  | some a =>
    obtain ⟨u, e⟩ := exec_of_offendingAddress_some ha
    refine ⟨_, e, by simp, ?_⟩
    rintro _ ⟨rfl⟩
    exact ⟨takeFault_fault .., takeFault_faultInfo .., offendingAddress_range ha⟩

/-! ### No step stops the machine (R174, R210) -/

/-- Settles O53: Idle the host's next action or nothing, Running a move of the core. -/
theorem everyStepAnswersANextState : Obligations.EveryStepAnswersANextState := by
  intro s
  rcases s.run_cases with hr | hr
  · cases hq : s.hostQueue with
    | nil => exact ⟨s, step_idle_nil hr hq⟩
    | cons act rest => exact ⟨_, step_idle_cons hr hq⟩
  · obtain ⟨t, hmove⟩ := exists_coreMove Opcodes.standard s
    exact ⟨t, (step_running hr).trans hmove.runStepWith_eq⟩

/-! ### The run of exactly one instruction (R184) -/

/-- A run of which one instruction's cycles were spent reports these (spec/43_execute_loop.md R155). -/
theorem endRun_of_cyc_eq_req_sub {s : State} {n : Nat} (hreq : 0 < s.req.toInt) (hn : n ≤ 6)
    (hcyc : s.cyc = s.req - BitVec.ofNat 32 n) :
    endRun s = { s with run := .idle, used := BitVec.ofNat 32 n } := by
  have hexact : s.cyc.toInt = s.req.toInt - n := by rw [hcyc, toInt_sub_charge hreq hn]
  have hused : s.req - s.cyc = BitVec.ofNat 32 n := by rw [hcyc, sub_sub_cancel]
  rw [endRun_fits ((usedFits_iff s).2 (by omega)), hused]

/-- A run begun with a budget of 1 or 2 cycles ends after its first instruction, if that raises nothing: every
instruction takes at least 2. -/
theorem runFor_two_of_req_le_two {s : State} {i : Instr} {rest : List Byte} (hr : s.run = .running)
    (hstart : s.cyc = s.req) (hpos : 0 < s.req.toInt) (htwo : s.req.toInt ≤ 2)
    (hd : decodeWith Opcodes.standard s.bytesAtPC = .ok (i, rest)) (ha : offendingAddress i s = none) :
    ∃ t : State, exec i (s.fetched i.length) = .next t ∧ runFor 2 s = .next (endRun t) ∧
      endRun t = { t with run := .idle, used := BitVec.ofNat 32 (cycleTotal i s) } ∧ t.fault = s.fault := by
  have hc : 0 < s.cyc.toInt := hstart ▸ hpos
  obtain ⟨t, hexec, hrun, hreq, hfault⟩ := exec_of_offendingAddress_none (s := s.fetched i.length) (by exact ha)
  replace hreq : t.req = s.req := hreq
  have hmove : runStepWith Opcodes.standard s = .next t := (runStepWith_decoded hc hd).trans hexec
  have hcyc : t.cyc = t.req - BitVec.ofNat 32 (cycleTotal i s) := by
    rw [hreq, ← hstart]
    exact (runStepWith_eq_next_iff.1 hmove).cyc_of_decoded hc hd
  have hspent : t.cyc.toInt ≤ 0 := by
    have hcharged := (runStepWith_eq_next_iff.1 hmove).two_le_charged hc hd
    rw [hstart] at hcharged
    omega
  refine ⟨t, hexec, ?_, endRun_of_cyc_eq_req_sub (hreq ▸ hpos) (cycleTotal_le_six i s) hcyc, hfault⟩
  rw [runFor_succ ((step_running hr).trans hmove), runFor_succ (step_running_done (hrun.trans hr) hspent), runFor_zero]

/-- Settles O15: acceptance, then a run with a budget of 1 cycle. -/
theorem executeOneRunsOneInstruction : Obligations.ExecuteOneRunsOneInstruction := by
  intro s i rest hr hq hd ha
  obtain ⟨t, hexec, hrest, hend, hfault⟩ := runFor_two_of_req_le_two
    (s := acceptExecute 1#32 { s with hostQueue := [] }) rfl rfl (show 0 < (1#32).toInt by decide)
    (show (1#32).toInt ≤ 2 by decide) hd ha
  have hsteps : runFor 3 s = .next (endRun t) := (runFor_succ (step_idle_cons hr hq) 2).trans hrest
  exact ⟨t, endRun t, hexec, hsteps, hend, 3, endRun t, hsteps, endRun_run t, (endRun_fault t).trans hfault⟩

end Sys2Proof.Machine
end

section
/-! Reset and power-on (spec/70_reset_and_hazards.md R200 to R206), and where a placed instruction runs: bytes stored at
PC read back, so they are what the next step fetches. -/

namespace Sys2Proof.Machine

/-! ### Bytes stored at PC (spec/30_encoding.md R87) -/

/-- An address after PC, counted from the next one. -/
theorem add_ofNat_succ (pc : Addr) (k : Nat) : pc + BitVec.ofNat 16 (k + 1) = pc + 1#16 + BitVec.ofNat 16 k := by
  rw [Nat.add_comm k 1, BitVec.ofNat_add, BitVec.add_assoc]

/-- A cell that is none of the stored ones reads as before. -/
theorem read_storeAt_of_ne {a : Addr} : ∀ (bytes : List Byte) (pc : Addr) {m : Memory}, m.wf = true →
    (∀ k < bytes.length, a ≠ pc + BitVec.ofNat 16 k) → (storeAt pc bytes m).read a.toNat = m.read a.toNat
  | [], _, _, _, _ => rfl
  | b :: rest, pc, m, hm, ha => by
    have hhead : a.toNat ≠ pc.toNat := fun e =>
      ha 0 (Nat.succ_pos _) ((BitVec.eq_of_toNat_eq e).trans (BitVec.add_zero pc).symm)
    have hrest : ∀ k < rest.length, a ≠ pc + 1#16 + BitVec.ofNat 16 k := fun k hk =>
      add_ofNat_succ pc k ▸ ha (k + 1) (Nat.succ_lt_succ hk)
    exact (read_storeAt_of_ne rest (pc + 1#16) (Memory.wf_write b hm (addr_lt pc)) hrest).trans
      (Memory.read_write_of_ne hm b hhead)

/-- Stored bytes read back, unless there are so many that they meet again around the address space. -/
theorem read_storeAt : ∀ {bytes : List Byte} (pc : Addr) {m : Memory}, m.wf = true → bytes.length ≤ 0x10000 →
    ∀ {k : Nat} (hk : k < bytes.length), (storeAt pc bytes m).read (pc + BitVec.ofNat 16 k).toNat = bytes[k]
  | b :: rest, pc, m, hm, hlen, 0, _ => by
    have hlen' : rest.length < 0x10000 := hlen
    have hne : ∀ k < rest.length, pc ≠ pc + 1#16 + BitVec.ofNat 16 k := fun k hk => by bv_omega
    have hzero : pc + BitVec.ofNat 16 0 = pc := BitVec.add_zero pc
    rw [hzero]
    exact (read_storeAt_of_ne rest (pc + 1#16) (Memory.wf_write b hm (addr_lt pc)) hne).trans
      (Memory.read_write_same hm ..)
  | b :: rest, pc, m, hm, hlen, k + 1, hk => by
    rw [add_ofNat_succ]
    exact read_storeAt (pc + 1#16) (Memory.wf_write b hm (addr_lt pc)) (Nat.le_of_succ_le hlen)
      (Nat.lt_of_succ_lt_succ hk)

/-! ### The state with an instruction placed (log 10) -/

/-- The next step of such a state fetches: it runs, with budget left, at the PC where the bytes were stored. -/
theorem withFetchWord_fetches (s : State) (nbits w : Nat) :
    (s.withFetchWord nbits w).run = .running ∧ 0 < (s.withFetchWord nbits w).cyc.toInt ∧
      (s.withFetchWord nbits w).pc = s.pc ∧
      (s.withFetchWord nbits w).mem = storeAt s.pc (tableBytes nbits w) s.mem := by
  rcases s.run_cases with hr | hr
  · simp [State.withFetchWord, hr, acceptExecute]
  · by_cases hc : 0 < s.cyc.toInt
    · simp [State.withFetchWord, hr, budgetLeft, hc]
    · simp [State.withFetchWord, hr, budgetLeft, hc]

theorem bytesAtPC_withFetchWord {s : State} (hm : s.mem.wf = true) (nbits w : Nat) :
    (s.withFetchWord nbits w).bytesAtPC = tableBytes nbits w := by
  obtain ⟨-, -, hpc, hmem⟩ := withFetchWord_fetches s nbits w
  have hlen : (tableBytes nbits w).length ≤ 0x10000 := by simp [tableBytes]
  have hread {k : Nat} := read_storeAt (k := k) s.pc hm hlen
  have hfirst := hread (k := 0) (by simp [tableBytes])
  have hsecond := hread (k := 1) (by simp [tableBytes])
  have hthird := hread (k := 2) (by simp [tableBytes])
  rw [BitVec.add_zero] at hfirst
  rw [State.bytesAtPC, hpc, hmem, hfirst, hsecond, hthird]
  rfl

/-- A table word that decodes is decoded from its bytes. -/
theorem exists_decodeWith_of_decodeTableWord {nbits w : Nat} {i : Instr} (h : decodeTableWord nbits w = some i) :
    ∃ rest, decodeWith Opcodes.standard (tableBytes nbits w) = .ok (i, rest) := by
  unfold decodeTableWord decode at h
  split at h
  · next r hr =>
    cases h
    exact ⟨r.2, hr⟩
  · cases h

/-- Settles O12: the placed bytes are the bytes at PC, and the state's next step fetches them. -/
theorem placedInstructionRunsNext : Obligations.PlacedInstructionRunsNext := by
  intro s nbits w i hm hi
  obtain ⟨hrun, hcyc, -, -⟩ := withFetchWord_fetches s nbits w
  obtain ⟨rest, hd⟩ := exists_decodeWith_of_decodeTableWord hi
  rw [← bytesAtPC_withFetchWord hm] at hd
  exact (step_running hrun).trans (runStepWith_decoded hcyc hd)

/-! ### Reset (R200, R204) -/

theorem Flags.get_reset (f : FlagName) : Flags.reset.get f = false := by
  cases f <;> rfl

/-- Settles O1: an Idle core accepts Reset, and the state it answers is given by its definition. -/
theorem resetGivesEveryListedValue : Obligations.ResetGivesEveryListedValue := by
  intro s hr
  exact ⟨resetCore s, hostAct_of_idle hr _, rfl, rfl, rfl, rfl, rfl, Flags.get_reset, fun a _ => Memory.read_nil a,
    rfl, rfl, rfl, rfl, rfl, rfl, resetCore_architectural s⟩

/-- Settles O2: Reset reads only the model's own two fields, which it keeps. -/
theorem resetIsDeterministicAndIdempotent : Obligations.ResetIsDeterministicAndIdempotent := by
  intro s t hs ht
  have hagree : (resetCore s).architectural = (resetCore t).architectural := by
    rw [resetCore_architectural, resetCore_architectural]
  have htwice : hostAct .reset (resetCore s) = .next (resetCore s) := hostAct_of_idle rfl .reset
  exact ⟨resetCore s, resetCore t, hostAct_of_idle hs _, hostAct_of_idle ht _, hagree, htwice⟩

/-! ### Power-on (R205) -/

/-- Every Idle state is a machine at power-on, and no other is (log 7). -/
theorem run_eq_idle_iff_powerOn (s : State) : s.run = .idle ↔ ∃ unspecified, s = State.powerOn unspecified := by
  constructor
  · intro hr
    refine ⟨s, ?_⟩
    rw [State.powerOn, ← hr]
  · rintro ⟨unspecified, rfl⟩
    exact powerOn_run unspecified

/-- Settles O57: at power-on the core is Idle, so its first Reset is accepted, from the host and from the queue. -/
theorem firstResetDefinesThePoweredOnMachine : Obligations.FirstResetDefinesThePoweredOnMachine := by
  refine ⟨run_eq_idle_iff_powerOn, fun unspecified => ⟨?_, fun rest hq => ?_⟩⟩
  · exact ⟨resetCore _, hostAct_of_idle (powerOn_run unspecified) .reset, resetCore_architectural _, resetCore_inv _⟩
  · exact ⟨resetCore _, step_idle_cons (powerOn_run unspecified) hq, resetCore_architectural _, rfl, resetCore_inv _⟩

end Sys2Proof.Machine
end
